-- ==== Sys2Proof/Word.lean ====
section
/-!
DEFINITION. The word types of USICB (spec/00_scope.md R8): bytes, operation words, the event set, the slot number.
-/

namespace Sys2Proof

/-- One byte: the element of the ring, of the tables and of the host stream (R8, R63). -/
abbrev Byte := BitVec 8

/-- One operation word `cmd[15:0]` of the command port (R90, R91). -/
abbrev OpWord := BitVec 16

/-- The set of pending events, bit `id` for event `id` (R26: "bitset indexed by event ID"). -/
abbrev EventBits := BitVec 256

/-- The number of a slot of the main-loop iteration (R35). -/
abbrev SlotNo := BitVec 2

end Sys2Proof
end

