-- ==== Sys2Proof/Config.lean ====
section
/-!
DEFINITION. The parameters of spec/00_scope.md R6, the reference configuration CFG-T of R7, and the free values: opaque
constants with no body, for what the spec leaves unspecified (spec/93_implementation_defined.md, treatment "any value").
-/

namespace Sys2Proof

/-- The parameters of R6. The model takes every OPEN parameter as an argument: they are one field of State that no step
writes. `evSource`, `tickPeriod` and `pwmOvfPeriod` are read by no rule (R6, R155); `devStorage` is the platform's, not the
spec's: bit `a` says that device register `a` is a plain storage location (R238; DESIGN CHOICE, log 15). -/
structure Params where
  /-- `TX_AW`; the ring holds `TX_CAP = 2^TX_AW` bytes. -/
  txAw : Nat
  /-- `EV_MIN`. -/
  evMin : Nat
  /-- `EV_MAX`. -/
  evMax : Nat
  /-- `PRESS_MASK`. -/
  pressMask : Byte
  /-- `PWR_STEPS`, entry 0 first. -/
  pwrSteps : List Byte
  /-- `WHO_STRING` (environment). -/
  whoString : List Byte
  /-- `EV_SOURCE`, the source of `EV_MIN` first. -/
  evSource : List Nat
  /-- `TICK_PERIOD`. -/
  tickPeriod : Nat
  /-- `PWM_OVF_PERIOD`. -/
  pwmOvfPeriod : Nat
  /-- The platform's map of plain storage registers. -/
  devStorage : BitVec 256
  deriving DecidableEq, Repr

/-- `TX_CAP`, a power of two (R6). -/
def Params.txCap (p : Params) : Nat := 2 ^ p.txAw

/-- `PWR_STEPS_LEN` (R6). -/
def Params.pwrStepsLen (p : Params) : Nat := p.pwrSteps.length

/-- `TX_CHUNK`, fixed at 8 (R6). -/
def txChunkMax : Nat := 8

/-- The constraints of R6 on the parameters. -/
def Params.wf (p : Params) : Bool :=
  decide (3 ≤ p.txAw) && decide (p.evMin ≤ p.evMax) && decide (p.evMax ≤ 255) && decide (p.pressMask ≠ 0) &&
    decide (1 ≤ p.pwrSteps.length) && decide (p.pwrSteps.length ≤ 256) && decide (p.pwrSteps.head? = some 0) &&
    decide (p.evSource.length = p.evMax + 1 - p.evMin)

/-- The reference configuration CFG-T (R7). R7 gives no `WHO_STRING`, `EV_SOURCE`, periods or storage map: these are
empty or zero here (DESIGN CHOICE, log 3). -/
def cfgT : Params where
  txAw := 4
  evMin := 0x01
  evMax := 0x1F
  pressMask := 0x01
  pwrSteps := [0x00, 0x40, 0x80, 0xC0]
  whoString := []
  evSource := List.replicate 31 0
  tickPeriod := 0
  pwmOvfPeriod := 0
  devStorage := 0

/-- Free value: the byte that ring element `index` holds before any PUSH has written it, after reset number `epoch`
(R21, R41, U2: any byte, possibly different at each reset). Log 9. -/
opaque Config.unwrittenByte (epoch index : Nat) : Byte

/-- Free value: the contents of plain storage register `addr` before the first write, after reset number `epoch` (R238,
U17). Log 15. -/
opaque Config.devInit (epoch : Nat) (addr : Byte) : Byte

/-- Free value: ValueStack position `k` after reset number `epoch` by the `rst` input (R235, U20). Log 13. -/
opaque Config.stackAfterReset (epoch k : Nat) : Byte

/-- Free value number `n`: each value the spec leaves open while the machine goes on takes the next number of the counter
`fresh` of State. Logs 10, 11, 15, 16, 17. -/
opaque Config.freeByte (n : Nat) : Byte

end Sys2Proof
end

