-- ==== Sys2Proof/Syntax.lean ====
section
/-!
DEFINITION. The instruction set: one constructor per row of spec/opcode_table.json, ten OP16 operations of the block
(spec/30_encoding.md R92) and eight CMDCHAR commands of the environment (spec/44_command_interpreter_context.md R224).
-/

namespace Sys2Proof

/-- The operations of USICB-OPS v1 and the commands of the host protocol. -/
inductive Instr where
  /-- NOP (R266). -/
  | nop
  /-- TICK `raw` (R170). -/
  | tick (raw : Byte)
  /-- PWMOVF (R200). -/
  | pwmovf
  /-- RAISE `id` (R150). -/
  | raise (id : Byte)
  /-- PUSH `byte` (R130). -/
  | push (byte : Byte)
  /-- DRAIN (R132). -/
  | drain
  /-- EVDRAIN (R151). -/
  | evdrain
  /-- PRESS `mask` (R176). -/
  | press (mask : Byte)
  /-- PWRSTEP (R178). -/
  | pwrstep
  /-- LOOPSTEP `rdy` (R261). -/
  | loopstep (rdy : Bool)
  /-- WHO, `@` (R225). -/
  | who
  /-- GET, `?` (R226). -/
  | get
  /-- SET, `=` (R227). -/
  | set
  /-- SET_TWICE, `$` (R228). -/
  | setTwice
  /-- AND_SET, `&` (R229). -/
  | andSet
  /-- OR_SET, `|` (R229). -/
  | orSet
  /-- XOR_SET, `^` (R229). -/
  | xorSet
  /-- ERROR, any other token byte `c`, as the token buffer holds it (R230). -/
  | error (c : Byte)
  deriving DecidableEq, Repr

/-- The two instruction formats: an OP16 word on the command port (R91) and the byte of a one-byte token (R224, R106). -/
inductive Code where
  /-- A 16-bit operation word. -/
  | op16 (w : OpWord)
  /-- A command character. -/
  | cmdChar (c : Byte)
  deriving DecidableEq, Repr

/-- The context the table gives an operation (R92, R300). -/
inductive Context where
  /-- Timers and event sources. -/
  | interrupt
  /-- The main loop and, in its poll slot, the command interpreter. -/
  | main
  deriving DecidableEq, Repr

/-- The context column of R92; `none` is "any". The commands run in the main context (R220). -/
def Instr.context : Instr → Option Context
  | .nop => none
  | .tick _ => some .interrupt
  | .pwmovf => some .interrupt
  | .raise _ => some .interrupt
  | .push _ => some .main
  | .drain => some .main
  | .evdrain => some .main
  | .press _ => some .main
  | .pwrstep => some .main
  | .loopstep _ => some .main
  | .who => some .main
  | .get => some .main
  | .set => some .main
  | .setTwice => some .main
  | .andSet => some .main
  | .orSet => some .main
  | .xorSet => some .main
  | .error _ => some .main

end Sys2Proof
end

