-- ==== Sys2Proof/WellFormed.lean ====
section
/-!
DEFINITION. Well-formed instructions: what the spec demands of operands beyond their width.
-/

namespace Sys2Proof

/-- A byte that R221 calls a token byte. -/
def isTokenByte (b : Byte) : Bool := decide (0x20 < b)

/-- The seven command characters that are not ERROR (R224, R102). -/
def commandChars : List Byte := [0x40, 0x3F, 0x3D, 0x24, 0x26, 0x7C, 0x5E]

/-- A lowercase letter, which R222 never leaves in the token buffer. -/
def isLower (b : Byte) : Bool := decide (0x61 ≤ b) && decide (b ≤ 0x7A)

/-- `RAISE id` needs `EV_MIN <= id <= EV_MAX` (R93, R96); ERROR stands for a token byte, normalised, that is no other
command (R221, R222, R224). Every other operand may be any value of its width (R93). -/
def Instr.wf (p : Params) : Instr → Bool
  | .raise id => decide (p.evMin ≤ id.toNat) && decide (id.toNat ≤ p.evMax)
  | .error c => isTokenByte c && !isLower c && !commandChars.contains c
  | .nop => true
  | .tick _ => true
  | .pwmovf => true
  | .push _ => true
  | .drain => true
  | .evdrain => true
  | .press _ => true
  | .pwrstep => true
  | .loopstep _ => true
  | .who => true
  | .get => true
  | .set => true
  | .setTwice => true
  | .andSet => true
  | .orSet => true
  | .xorSet => true

end Sys2Proof
end

