-- ==== Sys2Proof/Decode.lean ====
section
/-!
DEFINITION. Decoding and encoding (spec/30_encoding.md R91 to R97, spec/44_command_interpreter_context.md R224), the
character normalisation of R222, the pseudo-operations of R104 and the trace notation of R103.
-/

namespace Sys2Proof

/-- Why a word or a byte is no instruction. -/
inductive DecodeError where
  /-- `cmd[11:8]` is not zero (R95). -/
  | reservedZeroField (w : OpWord)
  /-- `opc` is in `0xA .. 0xF` (R95). -/
  | reservedOpcode (w : OpWord)
  /-- A nonzero operand on an operation without one, or bits 7:1 of a LOOPSTEP (R95). -/
  | reservedOperand (w : OpWord)
  /-- A byte `<= 0x20` is a delimiter and spells no command (R221). -/
  | delimiterByte (c : Byte)
  deriving DecidableEq, Repr

/-- "lowercase letters are upcased": `a`..`z` become `A`..`Z`, every other byte is unchanged (R222). -/
def upcase (b : Byte) : Byte := if 0x61 ≤ b ∧ b ≤ 0x7A then b - 0x20 else b

/-- Field `opc`, bits 15:12 (R91). -/
def fieldOpc (w : OpWord) : BitVec 4 := w.extractLsb' 12 4

/-- Field `zero`, bits 11:8 (R91). -/
def fieldZero (w : OpWord) : BitVec 4 := w.extractLsb' 8 4

/-- Field `imm8`, bits 7:0 (R91, R93). -/
def fieldImm8 (w : OpWord) : Byte := w.extractLsb' 0 8

/-- An operation without operand needs `imm8 = 0x00` (R97 step 3). -/
def decodeNoOperand (w : OpWord) (i : Instr) : Except DecodeError Instr :=
  if fieldImm8 w = 0 then .ok i else .error (.reservedOperand w)

/-- LOOPSTEP needs `imm8[7:1] = 0`; `rdy` is bit 0 (R93, R97 step 3). -/
def decodeLoopstep (w : OpWord) : Except DecodeError Instr :=
  if (fieldImm8 w).extractLsb' 1 7 = 0 then .ok (.loopstep (w.getLsbD 0)) else .error (.reservedOperand w)

/-- The decoding algorithm of R97, steps 1 to 3 and 5, total on all words. Step 4 (the range of a RAISE) depends on the
configuration: `legalWord` adds it, and the meaning of RAISE applies it. -/
def decodeOp16 (w : OpWord) : Except DecodeError Instr :=
  if fieldZero w ≠ 0 then .error (.reservedZeroField w)
  else
    match (fieldOpc w).toNat with
    | 0 => decodeNoOperand w .nop
    | 1 => .ok (.tick (fieldImm8 w))
    | 2 => decodeNoOperand w .pwmovf
    | 3 => .ok (.raise (fieldImm8 w))
    | 4 => .ok (.push (fieldImm8 w))
    | 5 => decodeNoOperand w .drain
    | 6 => decodeNoOperand w .evdrain
    | 7 => .ok (.press (fieldImm8 w))
    | 8 => decodeNoOperand w .pwrstep
    | 9 => decodeLoopstep w
    | _ => .error (.reservedOpcode w)

/-- R97 with step 4: the word is a legal operation under the parameters `p`. -/
def legalWord (p : Params) (w : OpWord) : Bool :=
  match decodeOp16 w with
  | .ok i => i.wf p
  | .error _ => false

/-- The command a one-byte token selects (R224); `c` is the byte as the token buffer holds it, normalised by R222. A byte
that R221 calls a delimiter is no token. -/
def decodeChar (c : Byte) : Except DecodeError Instr :=
  if c ≤ 0x20 then .error (.delimiterByte c)
  else if c = 0x40 then .ok .who
  else if c = 0x3F then .ok .get
  else if c = 0x3D then .ok .set
  else if c = 0x24 then .ok .setTwice
  else if c = 0x26 then .ok .andSet
  else if c = 0x7C then .ok .orSet
  else if c = 0x5E then .ok .xorSet
  else .ok (.error c)

/-- The decoder of both formats. -/
def decode : Code → Except DecodeError Instr
  | .op16 w => decodeOp16 w
  | .cmdChar c => decodeChar (upcase c)

/-- What the decoder reads from an instruction of `nbits` bits: 16 for OP16, 8 for CMDCHAR. An OP16 word is presented in
parallel (R63, R90), so it has no byte order to lay out. -/
def decodeTableWord (nbits w : Nat) : Option Instr :=
  if w < 2 ^ nbits then
    if nbits = 16 then (decode (.op16 (BitVec.ofNat 16 w))).toOption
    else if nbits = 8 then (decode (.cmdChar (BitVec.ofNat 8 w))).toOption
    else none
  else none

/-- The OP16 word with the given `opc` and `imm8` and a zero field (R91). -/
def opWord (opc : BitVec 4) (imm : Byte) : OpWord := opc ++ (0 : BitVec 4) ++ imm

/-- `rdy` as the `imm8` of LOOPSTEP (R92: "`rdy` in bit 0, bits 7:1 zero"). -/
def rdyImm (rdy : Bool) : Byte := if rdy then 0x01 else 0x00

/-- The encoder, from the opcode maps of R92 and R224. -/
def encode : Instr → Code
  | .nop => .op16 (opWord 0x0 0x00)
  | .tick raw => .op16 (opWord 0x1 raw)
  | .pwmovf => .op16 (opWord 0x2 0x00)
  | .raise id => .op16 (opWord 0x3 id)
  | .push byte => .op16 (opWord 0x4 byte)
  | .drain => .op16 (opWord 0x5 0x00)
  | .evdrain => .op16 (opWord 0x6 0x00)
  | .press mask => .op16 (opWord 0x7 mask)
  | .pwrstep => .op16 (opWord 0x8 0x00)
  | .loopstep rdy => .op16 (opWord 0x9 (rdyImm rdy))
  | .who => .cmdChar 0x40
  | .get => .cmdChar 0x3F
  | .set => .cmdChar 0x3D
  | .setTwice => .cmdChar 0x24
  | .andSet => .cmdChar 0x26
  | .orSet => .cmdChar 0x7C
  | .xorSet => .cmdChar 0x5E
  | .error c => .cmdChar c

/-- The mnemonics of R92 and R224. -/
def Instr.mnemonic : Instr → String
  | .nop => "NOP"
  | .tick _ => "TICK"
  | .pwmovf => "PWMOVF"
  | .raise _ => "RAISE"
  | .push _ => "PUSH"
  | .drain => "DRAIN"
  | .evdrain => "EVDRAIN"
  | .press _ => "PRESS"
  | .pwrstep => "PWRSTEP"
  | .loopstep _ => "LOOPSTEP"
  | .who => "WHO"
  | .get => "GET"
  | .set => "SET"
  | .setTwice => "SET_TWICE"
  | .andSet => "AND_SET"
  | .orSet => "OR_SET"
  | .xorSet => "XOR_SET"
  | .error _ => "ERROR"

/-- A byte as the hexadecimal literal of R103. -/
def traceHex (b : Byte) : String :=
  "0x" ++ String.ofList [(Nat.digitChar (b.toNat / 16)).toUpper, (Nat.digitChar (b.toNat % 16)).toUpper]

/-- The trace notation of R103: the mnemonic, then the operand. R103 speaks of the ten operations; a command prints as its
mnemonic. -/
def Instr.trace : Instr → String
  | .tick raw => "TICK " ++ traceHex raw
  | .raise id => "RAISE " ++ traceHex id
  | .push byte => "PUSH " ++ traceHex byte
  | .press mask => "PRESS " ++ traceHex mask
  | .loopstep rdy => if rdy then "LOOPSTEP 1" else "LOOPSTEP 0"
  | .nop => "NOP"
  | .pwmovf => "PWMOVF"
  | .drain => "DRAIN"
  | .evdrain => "EVDRAIN"
  | .pwrstep => "PWRSTEP"
  | .who => "WHO"
  | .get => "GET"
  | .set => "SET"
  | .setTwice => "SET_TWICE"
  | .andSet => "AND_SET"
  | .orSet => "OR_SET"
  | .xorSet => "XOR_SET"
  | .error _ => "ERROR"

/-- `ITER r` (R104): one iteration; legal only when `slot = 0`. -/
def pseudoIter (r : Bool) : List Instr := [.loopstep false, .loopstep r, .loopstep false, .loopstep false]

/-- `PUSHS "text"` (R104), the text given as its bytes. -/
def pseudoPushs (text : List Byte) : List Instr := text.map .push

/-- `TICKS k, v` (R104). -/
def pseudoTicks (k : Nat) (v : Byte) : List Instr := List.replicate k (.tick v)

/-- `PWMOVFS k` (R104). -/
def pseudoPwmovfs (k : Nat) : List Instr := List.replicate k .pwmovf

end Sys2Proof
end

