-- ==== Sys2Proof/Machine/State.lean ====
section
/-!
DEFINITION. The state of the machine as plain data: the thirteen items of spec/10_state.md R20, the state of the command
interpreter and of the device registers it reaches (spec/44_command_interpreter_context.md), the ports, and the model's
own fields. INVENTORY.md lists each with its rule and its reset value.
-/

namespace Sys2Proof.Machine

/-- A memory: the cells written, by strictly rising address. An address that is not listed holds no written byte (logs 9
and 15). -/
abbrev Memory := List Host.Cell

/-- Which profile the run claims (R270). -/
inductive Profile where
  /-- The direct profile; it also stands for a run that claims no profile (log 7). -/
  | direct
  /-- The scheduled profile: the main context issues LOOPSTEP, and PUSH only while `slot = 0`. -/
  | scheduled
  deriving DecidableEq, Repr

/-- One event presented to the machine, in the serial order of R5 and R69 (log 1). -/
inductive Event where
  /-- An operation word with its strobe (R90), and the context its issuer declares, if any (log 8). -/
  | op (issuer : Option Context) (word : OpWord)
  /-- A byte the transport delivers to the command interpreter (R220, R240). -/
  | host (byte : Byte)
  /-- A level of the reset input (R330). -/
  | rst (asserted : Bool)
  deriving DecidableEq, Repr

/-- One access of the command interpreter to the device registers (R238). -/
inductive RegAccess where
  /-- A load from `addr` that answered `value`. -/
  | read (addr value : Byte)
  /-- A store of `value` to `addr`. -/
  | write (addr value : Byte)
  deriving DecidableEq, Repr

/-- The result record of an operation (R99). Fields not listed for an operation are 0. -/
structure Rsp where
  /-- 1 when the word was reserved or illegal. -/
  err : Bool := false
  /-- DRAIN: the number of bytes pulled. -/
  n : BitVec 4 := 0
  /-- DRAIN: exactly 8 were pulled. -/
  was8 : Bool := false
  /-- DRAIN: the chunk; `data[k]` for `k >= n` is unspecified (U3). -/
  data : Vector Byte 8 := #v[0, 0, 0, 0, 0, 0, 0, 0]
  /-- EVDRAIN: an event was reported. -/
  valid : Bool := false
  /-- EVDRAIN: the ID reported. -/
  id : Byte := 0
  /-- PRESS: the lanes pending and selected. -/
  pressed : Byte := 0
  /-- LOOPSTEP: the slot that was executed. -/
  slot : SlotNo := 0
  /-- LOOPSTEP: the slot's operation did something. -/
  did : Bool := false
  deriving DecidableEq, Repr

/-- The outputs of the last operation performed (R42, R90); each operation sets all of them. -/
structure Outputs where
  /-- The result record. -/
  rsp : Rsp := {}
  /-- `tx_chunk`: the transaction handed to the transport; an empty list is a zero-length transaction, `none` is no
  transaction (R132, R134). -/
  txChunk : Option (List Byte) := none
  /-- The device register accesses of the last command, in order (R227 to R229). -/
  regBus : List RegAccess := []
  deriving DecidableEq, Repr

/-- The machine. -/
structure State where
  /-- `tx_buf` (R21): the ring bytes written since reset. -/
  txBuf : Memory
  /-- `tx_wr` (R22). -/
  txWr : Nat
  /-- `tx_rd` (R23). -/
  txRd : Nat
  /-- `tx_zlp` (R24). -/
  txZlp : Bool
  /-- `ev_pending` (R26). -/
  evPending : EventBits
  /-- `stable` (R27). -/
  stable : Byte
  /-- `ct0` (R28). -/
  ct0 : Byte
  /-- `ct1` (R28). -/
  ct1 : Byte
  /-- `press` (R29). -/
  press : Byte
  /-- `pwr_idx` (R31). -/
  pwrIdx : Byte
  /-- `pwm_cnt` (R33). -/
  pwmCnt : Byte
  /-- `heater_on` (R34), 1 is active. -/
  heaterOn : Bool
  /-- `led_on` (R34), 1 is active. -/
  ledOn : Bool
  /-- `slot` (R35), the block's only program counter. -/
  slot : SlotNo
  /-- The token bytes since the token buffer was last reset, oldest first; `tlen` is the length (R222). -/
  tok : List Byte
  /-- ValueStack `tos` (R235). -/
  tos : Byte
  /-- ValueStack `val` (R235). -/
  val : Byte
  /-- ValueStack `val2` (R235). -/
  val2 : Byte
  /-- The device registers that are plain storage, as written (R238). -/
  devMem : Memory
  /-- The events presented and not yet served (R69, R90). -/
  pending : List Event
  /-- The level of `rst` (R330). -/
  rst : Bool
  /-- The context the operation being performed was declared to come from (R294). -/
  issuer : Option Context
  /-- The outputs of the last operation (R99, R90). -/
  out : Outputs
  /-- The parameters of R6; no step writes them. -/
  cfg : Params
  /-- The profile the run claims (R270); no step writes it. -/
  profile : Profile
  /-- The sticky mark of `F_RSVD` with the word first recorded (R291). -/
  rsvdMark : Option OpWord
  /-- The number of the next free value (log 21). -/
  fresh : Nat
  /-- The number of resets seen (log 21). -/
  epoch : Nat
  deriving DecidableEq, Repr

/-- The output port `heater` (R42): continuous, equal to `heater_on`. -/
def State.heaterPort (s : State) : Bool := s.heaterOn

/-- The output port `led` (R42): continuous, equal to `led_on`. -/
def State.ledPort (s : State) : Bool := s.ledOn

/-- The model-level fault (R291). -/
inductive Fault where
  /-- `F_TXOVF`, code 1 (R131, R292): raised by PUSH, EVDRAIN, LOOPSTEP at slot 2 and every command's reply when a byte
  would be stored with `occ = TX_CAP - 1`. It records the byte, `tx_wr` and `tx_rd`. Safe: the hardware goes on, the model
  stops vouching. -/
  | txOvf (byte : Byte) (txWr txRd : Nat)
  deriving DecidableEq, Repr

/-- The refusals. -/
inductive Refusal where
  /-- An instruction with no meaning yet; no arm of exec uses it. Safe. -/
  | notModelled (mnemonic : String)
  /-- `F_PROFILE`, code 3 (R270, R291, R294): an operation issued against the scheduled profile the run claims, or from
  a declared context that is not its own. It records the word and `slot`. Safe: the hardware does not check, the run is
  not one the source's guarantees speak of. -/
  | profile (word : OpWord) (slot : SlotNo)
  deriving DecidableEq, Repr

/-- The code number of a fault (R291). -/
def Fault.code : Fault → Nat
  | .txOvf _ _ _ => 1

/-- The code number of `F_RSVD` (R291), which `rsvdMark` records. -/
def rsvdCode : Nat := 2

/-- The code number of a refusal (R291), where the spec gives it one. -/
def Refusal.code? : Refusal → Option Nat
  | .notModelled _ => none
  | .profile _ _ => some 3

/-- What the machine does with the event at the head of `pending`. -/
inductive Fetched where
  /-- Perform this instruction in this state. -/
  | instr (i : Instr) (s : State)
  /-- No instruction: the event's own effect is this state. -/
  | done (s : State)
  deriving DecidableEq, Repr

/-- The machine right after reset (R41, R330) under the parameters `cfg`; the fields that R41 does not list have the values
named in INVENTORY.md (logs 4, 7, 14, 19, 21). -/
def State.resetWith (cfg : Params) : State where
  txBuf := []
  txWr := 0
  txRd := 0
  txZlp := false
  evPending := 0
  stable := 0x00
  ct0 := 0xFF
  ct1 := 0xFF
  press := 0x00
  pwrIdx := 0
  pwmCnt := 0x00
  heaterOn := false
  ledOn := false
  slot := 0
  tok := []
  tos := 0
  val := 0
  val2 := 0
  devMem := []
  pending := []
  rst := false
  issuer := none
  out := {}
  cfg := cfg
  profile := .direct
  rsvdMark := none
  fresh := 0
  epoch := 0

/-- The machine right after reset under the reference configuration CFG-T (R7, R41; log 2). -/
def State.reset : State := State.resetWith cfgT

end Sys2Proof.Machine
end

