-- ==== Sys2Proof/Machine/Operands.lean ====
section
/-!
DEFINITION. Operand forms and byte formats: the ID range (spec/30_encoding.md R96), hex digits and reports (R100 to R102),
the token forms of spec/44_command_interpreter_context.md (R221, R222, R232, R236).
-/

namespace Sys2Proof.Machine

/-- `EV_MIN <= id <= EV_MAX` (R96). -/
def idInRange (p : Params) (id : Byte) : Bool := decide (p.evMin ≤ id.toNat) && decide (id.toNat ≤ p.evMax)

/-- Event `id` as a one-element set (R26). -/
def eventBit (id : Byte) : EventBits := BitVec.twoPow 256 id.toNat

/-- `HEX(v)` of a 4-bit value (R101): upper case. -/
def hexDigit (v : BitVec 4) : Byte := if v ≤ 9 then 0x30 + v.setWidth 8 else 0x41 + (v.setWidth 8 - 10)

/-- A byte as two hex digits, high nibble first (R101, R63). -/
def hexByte (b : Byte) : List Byte := [hexDigit (b.extractLsb' 4 4), hexDigit (b.extractLsb' 0 4)]

/-- CR, LF (R102). -/
def crlf : List Byte := [0x0D, 0x0A]

/-- The five bytes of an event report (R100). -/
def eventReport (id : Byte) : List Byte := [0x5C] ++ hexByte id ++ crlf

/-- A byte `<= 0x20` is a delimiter (R221). -/
def isDelimiter (b : Byte) : Bool := decide (b ≤ 0x20)

/-- The value of a hex digit byte, `0`..`9` or `A`..`F` (R232); other bytes have none in the source. -/
def hexValue? (b : Byte) : Option (BitVec 4) :=
  if 0x30 ≤ b ∧ b ≤ 0x39 then some ((b - 0x30).setWidth 4)
  else if 0x41 ≤ b ∧ b ≤ 0x46 then some ((b - 0x37).setWidth 4)
  else none

/-- A two-byte token as a number, first byte the high nibble (R232); `none` where the source gives no value (N21). -/
def tokenNumber? (hi lo : Byte) : Option Byte :=
  match hexValue? hi, hexValue? lo with
  | some h, some l => some (h ++ l)
  | _, _ => none

/-- The offset of a register-name stem: `PIN` 0, `DDR` 1, `PORT` 2 (R236). -/
def stemOffset? (stem : List Byte) : Option Byte :=
  if stem = [0x50, 0x49, 0x4E] then some 0
  else if stem = [0x44, 0x44, 0x52] then some 1
  else if stem = [0x50, 0x4F, 0x52, 0x54] then some 2
  else none

/-- The longest register-name token, `PORTx` (R236: "the effective range is 4 to 5"). -/
def longestName : Nat := 5

/-- Register-name resolution on the whole token (R236, C4): the last byte is the port letter, the bytes before it the stem;
an unknown stem gives the sentinel `0x20` whatever the letter. `none` where U19 says any value: a good stem with a last byte
outside `A`..`D` (log 16), and a token longer than any name (log 17). -/
def resolveName? (tok : List Byte) : Option Byte :=
  let letter := tok.getLastD 0
  if longestName < tok.length then none
  else
    match stemOffset? tok.dropLast with
    | none => some 0x20
    | some off => if 0x41 ≤ letter ∧ letter ≤ 0x44 then some (0x30 + (0x44 - letter) * 3 + off) else none

/-- The byte at position `p` of the 4-byte token buffer (R222): the latest token byte number `m` with `m mod 4 = p`. -/
def tokenBuffer (tok : List Byte) (p : Nat) : Option Byte :=
  (tok.zipIdx.filter fun c => c.2 % 4 == p).getLast?.map Prod.fst

end Sys2Proof.Machine
end

