-- ==== Sys2Proof/Machine/Flags.lean ====
section
/-!
DEFINITION. The one-bit items of spec/10_state.md R37 and the flags of the result records (R99), and the two contexts.
-/

namespace Sys2Proof.Machine

/-- `tx_zlp` after a DRAIN of `n` bytes that left the read cursor at `rd` (R132, R133). -/
def zlpAfterDrain (n rd wr : Nat) : Bool := decide (n = 8) && decide (rd = wr)

/-- `was8`: exactly 8 bytes were pulled (R99, R132). -/
def was8Flag (n : Nat) : Bool := decide (n = 8)

/-- An output register after the two tests of PWMOVF, made in this order, the later assignment winning (R200, R201). -/
def pwmOutput (cnt threshold : Byte) (old : Bool) : Bool :=
  let o := if cnt = 0 then true else old
  if cnt = threshold then false else o

/-- A DRAIN is due (R134): the transport is ready and there is a byte or an owed terminator. -/
def drainDue (rdy : Bool) (occ : Nat) (zlp : Bool) : Bool := rdy && (decide (0 < occ) || zlp)

/-- The issuer, where it is declared, is of the context the operation belongs to (R294, R300). -/
def contextOk (c : Context) (s : State) : Bool :=
  match s.issuer with
  | none => true
  | some d => decide (d = c)

/-- A DRAIN, EVDRAIN, PRESS or PWRSTEP on the command port keeps the profile (R270). -/
def mainDirectOk (s : State) : Bool := contextOk .main s && decide (s.profile = .direct)

/-- A PUSH keeps the profile: in the scheduled one it is legal only while `slot = 0` (R130, R270). -/
def pushOk (s : State) : Bool := contextOk .main s && (decide (s.profile = .direct) || decide (s.slot = 0))

end Sys2Proof.Machine
end

