-- ==== Sys2Proof/Machine/Ops.lean ====
section
/-!
DEFINITION. The named operations over memory and state: byte memories, free values, the ring (spec/40_txring.md), the event
set (spec/41_evlatch.md), the power table, the device registers (R238), and the three model outcomes of R291, which stand
where another machine has taking an exception (R290, R298: nothing is saved, no vector is fetched).
-/

namespace Sys2Proof.Machine

/-- The byte written at address `a`, if any. -/
def Memory.read? : Memory → Nat → Option Byte
  | [], _ => none
  | (b, v) :: m, a => if a = b then some v else Memory.read? m a

/-- Store one byte, keeping the addresses strictly rising. -/
def Memory.write : Memory → Nat → Byte → Memory
  | [], a, v => [(a, v)]
  | (b, w) :: m, a, v =>
    if a < b then (a, v) :: (b, w) :: m
    else if a = b then (a, v) :: m
    else (b, w) :: Memory.write m a v

/-- Every cell lies strictly above address `a`. -/
def Memory.above : Memory → Nat → Bool
  | [], _ => true
  | (b, _) :: m, a => decide (a < b) && Memory.above m a

/-- The canonical form: addresses strictly rising. An unlisted address reads as nothing written, so no entry can equal
what an unlisted address reads as. -/
def Memory.wf : Memory → Bool
  | [] => true
  | (a, _) :: m => Memory.above m a && Memory.wf m

/-- Every address of the memory is below `n`. -/
def Memory.within (m : Memory) (n : Nat) : Bool := m.all fun c => decide (c.1 < n)

/-- A value the spec leaves open: the next free value, and the counter moved on. -/
def takeFree (s : State) : Byte × State := (Config.freeByte s.fresh, { s with fresh := s.fresh + 1 })

/-- The state with the result record `r` and no other output (R99). -/
def respond (r : Rsp) (s : State) : State := { s with out := { rsp := r } }

/-- `F_RSVD` (R95, R96, R293): no state changes, the result has `err = 1`, and the sticky mark records the word (R291). -/
def rejectWord (w : OpWord) (s : State) : State :=
  { s with out := { rsp := { err := true } }, rsvdMark := s.rsvdMark.or (some w) }

/-- `F_PROFILE` (R291, R297): refused with the word and `slot` recorded, unless `ok`. -/
def guarded (ok : Bool) (w : OpWord) (s : State) (k : Host.Outcome State Fault Refusal) :
    Host.Outcome State Fault Refusal :=
  if ok then k else .refused (.profile w s.slot)

/-- The outcome of operations that may end in `F_TXOVF`. -/
def outcomeOf : Except Fault State → Host.Outcome State Fault Refusal
  | .ok s => .next s
  | .error f => .fault f

/-- Occupancy `(tx_wr - tx_rd) mod TX_CAP`, never negative (R25, R281). -/
def occ (s : State) : Nat := (s.txWr + (s.cfg.txCap - s.txRd % s.cfg.txCap)) % s.cfg.txCap

/-- `MemRead(a, 1)` (R62): the byte of the ring at `a mod TX_CAP`; unspecified where nothing was written (U2, log 9). -/
def ringRead (s : State) (a : Nat) : Byte :=
  (Memory.read? s.txBuf (a % s.cfg.txCap)).getD (Config.unwrittenByte s.epoch (a % s.cfg.txCap))

/-- `MemWrite(a, 1, v)` (R62). -/
def ringWrite (s : State) (a : Nat) (v : Byte) : State :=
  { s with txBuf := Memory.write s.txBuf (a % s.cfg.txCap) v }

/-- `push(b)` (R130): the body of PUSH, used by EVDRAIN and by the command interpreter too. `F_TXOVF` when
`occ = TX_CAP - 1` (R131). -/
def pushByte (b : Byte) (s : State) : Except Fault State :=
  if occ s = s.cfg.txCap - 1 then .error (.txOvf b s.txWr s.txRd)
  else .ok { ringWrite s s.txWr b with txWr := (s.txWr + 1) % s.cfg.txCap }

/-- A sequence of pushes, in order. -/
def pushAll : List Byte → State → Except Fault State
  | [], s => .ok s
  | b :: bs, s =>
    match pushByte b s with
    | .ok t => pushAll bs t
    | .error f => .error f

/-- The number of bytes a DRAIN pulls, `min(8, occ)` (R132). -/
def drainCount (s : State) : Nat := min txChunkMax (occ s)

/-- `data[k]` of a DRAIN of `n` bytes: the `k`-th oldest unread byte, and for `k >= n` a free value (R99, U3, log 10). -/
def drainByte (s : State) (n k : Nat) : Byte :=
  if k < n then ringRead s ((s.txRd + k) % s.cfg.txCap) else Config.freeByte (s.fresh + k)

/-- The eight bytes of `data`. -/
def drainData (s : State) (n : Nat) : Vector Byte 8 :=
  #v[drainByte s n 0, drainByte s n 1, drainByte s n 2, drainByte s n 3, drainByte s n 4, drainByte s n 5,
    drainByte s n 6, drainByte s n 7]

/-- The body of DRAIN (R132), which LOOPSTEP at slot 1 performs too. -/
def drainBody (s : State) : State :=
  let n := drainCount s
  let rd := (s.txRd + n) % s.cfg.txCap
  { s with
    txRd := rd
    txZlp := zlpAfterDrain n rd s.txWr
    fresh := s.fresh + 8
    out :=
      { rsp := { n := BitVec.ofNat 4 n, was8 := was8Flag n, data := drainData s n }
        txChunk := some ((List.range n).map (drainByte s n)) } }

/-- The least pending ID in `EV_MIN .. EV_MAX` (R151: "scans IDs from `MIN` upward"). -/
def lowestPending? (s : State) : Option Nat :=
  (List.range' s.cfg.evMin (s.cfg.evMax + 1 - s.cfg.evMin)).find? fun j => s.evPending.getLsbD j

/-- The body of EVDRAIN (R151), which LOOPSTEP at slot 2 performs too. -/
def evdrainBody (s : State) : Except Fault State :=
  match lowestPending? s with
  | none => .ok (respond {} s)
  | some j =>
    let id : Byte := BitVec.ofNat 8 j
    (pushAll (eventReport id) { s with evPending := s.evPending &&& ~~~(eventBit id) }).map
      (respond { valid := true, id := id })

/-- The body of PRESS (R176), which LOOPSTEP at slot 3 performs too. -/
def pressBody (mask : Byte) (s : State) : State :=
  let pressed := s.press &&& mask
  respond { pressed := pressed } { s with press := s.press &&& ~~~pressed }

/-- The index after one PWRSTEP (R178, R281). -/
def nextIndex (p : Params) (idx : Byte) : Byte := BitVec.ofNat 8 ((idx.toNat + 1) % p.pwrStepsLen)

/-- `PWR_STEPS[pwr_idx]` (R76). An index past the table is outside the spec (R337) and reads a free value (log 11). -/
def readThreshold (s : State) : Byte × State :=
  match s.cfg.pwrSteps[s.pwrIdx.toNat]? with
  | some t => (t, s)
  | none => takeFree s

/-- Device register `a` is a plain storage location (R238, log 15). -/
def isStorage (p : Params) (a : Byte) : Bool := p.devStorage.getLsbD a.toNat

/-- What a load from plain storage register `a` answers. -/
def devContents (s : State) (a : Byte) : Byte :=
  (Memory.read? s.devMem a.toNat).getD (Config.devInit s.epoch a)

/-- A raw 8-bit load from device register `a` (R238): a storage location gives its contents, any other register "whatever
value hardware returns" (U17, a free value). The access is shown on `regBus`. -/
def devRead (a : Byte) (s : State) : Byte × State :=
  let r := if isStorage s.cfg a then (devContents s a, s) else takeFree s
  (r.1, { r.2 with out := { s.out with regBus := s.out.regBus ++ [.read a r.1] } })

/-- A raw 8-bit store to device register `a` (R238): a storage location takes the value; what any other register does is
the platform's (U17) and reaches the block only through its inputs (R244). The access is shown on `regBus`. -/
def devWrite (a v : Byte) (s : State) : State :=
  { s with
    devMem := if isStorage s.cfg a then Memory.write s.devMem a.toNat v else s.devMem
    out := { s.out with regBus := s.out.regBus ++ [.write a v] } }

/-- A value shifted into the ValueStack, the token buffer reset (R232, R235). -/
def shiftIn (v : Byte) (s : State) : State := { s with tos := v, val := s.tos, val2 := s.val, tok := [] }

/-- The reply of a command (R231, R244): its bytes pushed in order, the token buffer reset, the result record that of the
last PUSH. The profile is checked at the first PUSH, before anything is changed (R297, log 18). -/
def reply (bytes : List Byte) (s : State) : Host.Outcome State Fault Refusal :=
  guarded (pushOk s) (opWord 0x4 (bytes.headD 0)) s
    (outcomeOf ((pushAll bytes s).map fun t => { t with tok := [], out := { t.out with rsp := {} } }))

end Sys2Proof.Machine
end

