-- ==== Sys2Proof/Machine/Debounce.lean ====
section
/-!
DEFINITION. The debounced input sampler, the press latch and the power-level index: TICK, PRESS, PWRSTEP
(spec/42_debounce.md).
-/

namespace Sys2Proof.Machine

/-- The equations of R170, in order, each line seeing the values the lines before it assigned. The `ct1` line has the
corrected operand order (R172, C1, log 23). -/
def tickBody (raw : Byte) (s : State) : State :=
  let changed := s.stable ^^^ ~~~raw
  let ct0 := ~~~(s.ct0 &&& changed)
  let ct1 := ct0 ^^^ (s.ct1 &&& changed)
  let settled := changed &&& ct0 &&& ct1
  let stable := s.stable ^^^ settled
  let press := s.press ||| (stable &&& settled)
  { s with stable := stable, ct0 := ct0, ct1 := ct1, press := press }

/-- TICK (R170). -/
def execTick (raw : Byte) (s : State) : Host.Outcome State Fault Refusal :=
  guarded (contextOk .interrupt s) (opWord 0x1 raw) s (.next (respond {} (tickBody raw s)))

/-- PRESS (R176). -/
def execPress (mask : Byte) (s : State) : Host.Outcome State Fault Refusal :=
  guarded (mainDirectOk s) (opWord 0x7 mask) s (.next (pressBody mask s))

/-- PWRSTEP (R178). -/
def execPwrstep (s : State) : Host.Outcome State Fault Refusal :=
  guarded (mainDirectOk s) (opWord 0x8 0x00) s
    (.next (respond {} { s with pwrIdx := nextIndex s.cfg s.pwrIdx }))

end Sys2Proof.Machine
end

