-- ==== Sys2Proof/Machine/EventLatch.lean ====
section
/-!
DEFINITION. The interrupt event latch: RAISE and EVDRAIN (spec/41_evlatch.md).
-/

namespace Sys2Proof.Machine

/-- RAISE (R150). An ID out of range is illegal (R96) and rejected before the context is looked at (R297). -/
def execRaise (id : Byte) (s : State) : Host.Outcome State Fault Refusal :=
  if idInRange s.cfg id then
    guarded (contextOk .interrupt s) (opWord 0x3 id) s
      (.next (respond {} { s with evPending := s.evPending ||| eventBit id }))
  else .next (rejectWord (opWord 0x3 id) s)

/-- EVDRAIN (R151). -/
def execEvdrain (s : State) : Host.Outcome State Fault Refusal :=
  guarded (mainDirectOk s) (opWord 0x6 0x00) s (outcomeOf (evdrainBody s))

end Sys2Proof.Machine
end

