-- ==== Sys2Proof/Machine/Interpreter.lean ====
section
/-!
DEFINITION. The commands of the environment's interpreter: WHO, GET, SET, SET_TWICE, AND_SET, OR_SET, XOR_SET, ERROR
(spec/44_command_interpreter_context.md). Each ends with CR LF and resets the token buffer (R231).
-/

namespace Sys2Proof.Machine

/-- No output of an earlier operation is left. -/
def clearOut (s : State) : State := { s with out := {} }

/-- Read register `tos`, combine with `val`, store back (R229), then CR LF. -/
def combineReply (f : Byte → Byte → Byte) (s : State) : Host.Outcome State Fault Refusal :=
  let r := devRead s.tos (clearOut s)
  reply crlf (devWrite s.tos (f r.1 s.val) r.2)

/-- WHO (R225): the identification string, CR LF. -/
def execWho (s : State) : Host.Outcome State Fault Refusal := reply (s.cfg.whoString ++ crlf) (clearOut s)

/-- GET (R226): the value of register `tos` as two hex digits, CR LF. -/
def execGet (s : State) : Host.Outcome State Fault Refusal :=
  let r := devRead s.tos (clearOut s)
  reply (hexByte r.1 ++ crlf) r.2

/-- SET (R227): write `val` to register `tos`. -/
def execSet (s : State) : Host.Outcome State Fault Refusal := reply crlf (devWrite s.tos s.val (clearOut s))

/-- SET_TWICE (R228): write `val`, then `val2`, to register `tos`. -/
def execSetTwice (s : State) : Host.Outcome State Fault Refusal :=
  reply crlf (devWrite s.tos s.val2 (devWrite s.tos s.val (clearOut s)))

/-- AND_SET (R229). -/
def execAndSet (s : State) : Host.Outcome State Fault Refusal := combineReply (· &&& ·) s

/-- OR_SET (R229). -/
def execOrSet (s : State) : Host.Outcome State Fault Refusal := combineReply (· ||| ·) s

/-- XOR_SET (R229). -/
def execXorSet (s : State) : Host.Outcome State Fault Refusal := combineReply (· ^^^ ·) s

/-- ERROR (R230): `!`, CR LF, whatever the character. -/
def execError (_c : Byte) (s : State) : Host.Outcome State Fault Refusal := reply ([0x21] ++ crlf) (clearOut s)

end Sys2Proof.Machine
end

