-- ==== Sys2Proof/Machine/Pwm.lean ====
section
/-!
DEFINITION. The PWM heater driver: PWMOVF (spec/43_pwm.md).
-/

namespace Sys2Proof.Machine

/-- One timer overflow (R200): increment, one table read, the two tests on the incremented count. -/
def pwmBody (s : State) : State :=
  let r := readThreshold s
  let cnt := s.pwmCnt + 1
  { r.2 with
    pwmCnt := cnt
    heaterOn := pwmOutput cnt r.1 s.heaterOn
    ledOn := pwmOutput cnt r.1 s.ledOn }

/-- PWMOVF (R200). -/
def execPwmovf (s : State) : Host.Outcome State Fault Refusal :=
  guarded (contextOk .interrupt s) (opWord 0x2 0x00) s (.next (respond {} (pwmBody s)))

end Sys2Proof.Machine
end

