-- ==== Sys2Proof/Machine/Scheduler.lean ====
section
/-!
DEFINITION. The main poll-loop scheduler: LOOPSTEP and NOP (spec/45_scheduler.md).
-/

namespace Sys2Proof.Machine

/-- Slot 0, POLL: nothing in the block changes, `did = 0` (R262). -/
def slotPoll (s : State) : State × Bool := (respond {} s, false)

/-- Slot 1, TXDRAIN: a DRAIN when one is due, else no state change and no transaction (R263). -/
def slotTxdrain (rdy : Bool) (s : State) : State × Bool :=
  if drainDue rdy (occ s) s.txZlp then (drainBody s, true) else (respond {} s, false)

/-- Slot 2, EVDRAIN: `did <- valid` (R264). -/
def slotEvdrain (s : State) : Except Fault (State × Bool) :=
  (evdrainBody s).map fun t => (t, t.out.rsp.valid)

/-- Slot 3, PRESS: PRESS with `PRESS_MASK`, and one PWRSTEP if it returned a press (R265). -/
def slotPress (s : State) : State × Bool :=
  let t := pressBody s.cfg.pressMask s
  if t.out.rsp.pressed ≠ 0 then ({ t with pwrIdx := nextIndex t.cfg t.pwrIdx }, true) else (t, false)

/-- The body of the current slot (R261). -/
def slotBody (rdy : Bool) (s : State) : Except Fault (State × Bool) :=
  if s.slot = 0 then .ok (slotPoll s)
  else if s.slot = 1 then .ok (slotTxdrain rdy s)
  else if s.slot = 2 then slotEvdrain s
  else .ok (slotPress s)

/-- The end of a LOOPSTEP begun with `slot = old`: the result's `slot` and `did`, and `slot <- (slot + 1) mod 4` (R261,
R99). -/
def finishSlot (old : SlotNo) (r : State × Bool) : State :=
  { r.1 with
    slot := old + 1
    out := { r.1.out with rsp := { r.1.out.rsp with slot := old, did := r.2 } } }

/-- LOOPSTEP (R261). -/
def execLoopstep (rdy : Bool) (s : State) : Host.Outcome State Fault Refusal :=
  guarded (contextOk .main s) (opWord 0x9 (rdyImm rdy)) s (outcomeOf ((slotBody rdy s).map (finishSlot s.slot)))

/-- NOP (R266): no state is read or written; the result has `err = 0`. -/
def execNop (s : State) : Host.Outcome State Fault Refusal := .next (respond {} s)

end Sys2Proof.Machine
end

