-- ==== Sys2Proof/Machine/TxRing.lean ====
section
/-!
DEFINITION. The TX ring buffer: PUSH and DRAIN (spec/40_txring.md).
-/

namespace Sys2Proof.Machine

/-- PUSH (R130, R131). -/
def execPush (byte : Byte) (s : State) : Host.Outcome State Fault Refusal :=
  guarded (pushOk s) (opWord 0x4 byte) s (outcomeOf ((pushByte byte s).map (respond {})))

/-- DRAIN (R132, R133). -/
def execDrain (s : State) : Host.Outcome State Fault Refusal :=
  guarded (mainDirectOk s) (opWord 0x5 0x00) s (.next (drainBody s))

end Sys2Proof.Machine
end

