-- ==== Sys2Proof/Machine/Dispatch.lean ====
section
/-! DEFINITION. The meaning of every instruction: one arm per constructor. -/

namespace Sys2Proof.Machine

def exec (i : Instr) (s : State) : Host.Outcome State Fault Refusal :=
  match i with
  | .nop => Sys2Proof.Machine.execNop s
  | .tick raw => Sys2Proof.Machine.execTick raw s
  | .pwmovf => Sys2Proof.Machine.execPwmovf s
  | .raise id => Sys2Proof.Machine.execRaise id s
  | .push byte => Sys2Proof.Machine.execPush byte s
  | .drain => Sys2Proof.Machine.execDrain s
  | .evdrain => Sys2Proof.Machine.execEvdrain s
  | .press mask => Sys2Proof.Machine.execPress mask s
  | .pwrstep => Sys2Proof.Machine.execPwrstep s
  | .loopstep rdy => Sys2Proof.Machine.execLoopstep rdy s
  | .who => Sys2Proof.Machine.execWho s
  | .get => Sys2Proof.Machine.execGet s
  | .set => Sys2Proof.Machine.execSet s
  | .setTwice => Sys2Proof.Machine.execSetTwice s
  | .andSet => Sys2Proof.Machine.execAndSet s
  | .orSet => Sys2Proof.Machine.execOrSet s
  | .xorSet => Sys2Proof.Machine.execXorSet s
  | .error c => Sys2Proof.Machine.execError c s

end Sys2Proof.Machine
end

