-- ==== Sys2Proof/Machine/Fetch.lean ====
section
/-!
DEFINITION. What the machine does with the next presented event: an operation word (spec/30_encoding.md R90, R97), a host
byte through the tokenizer (spec/44_command_interpreter_context.md R221 to R236), a level of `rst`
(spec/70_reset_and_hazards.md R330).
-/

namespace Sys2Proof.Machine

/-- Every item of R41 at its reset value, the unspecified contents renewed, the interpreter restarted (R330, logs 12
and 13); what is the run's and not the device's is kept. -/
def resetDevice (s : State) : State :=
  { State.resetWith s.cfg with
    tos := Config.stackAfterReset (s.epoch + 1) 0
    val := Config.stackAfterReset (s.epoch + 1) 1
    val2 := Config.stackAfterReset (s.epoch + 1) 2
    pending := s.pending
    profile := s.profile
    rsvdMark := s.rsvdMark
    fresh := s.fresh
    epoch := s.epoch + 1 }

/-- A level of `rst` (R330): asserted, the device is held in reset; released, it starts from its reset values. A release
that follows no assertion is no edge and changes nothing. -/
def rstLevel (asserted : Bool) (s : State) : State :=
  if asserted then { resetDevice s with rst := true }
  else if s.rst then resetDevice s
  else s

/-- An operation word (R90, R97). While `rst` is asserted no operation is accepted (R330, log 12); a reserved word changes
no state and gives `err = 1` (R95). -/
def fetchOp (issuer : Option Context) (w : OpWord) (s : State) : Fetched :=
  if s.rst then .done s
  else
    match decodeOp16 w with
    | .ok i => .instr i { s with issuer := issuer }
    | .error _ => .done (rejectWord w s)

/-- A token byte, normalised and appended to the token (R222). -/
def tokenByte (b : Byte) (s : State) : State := { s with tok := s.tok ++ [upcase b] }

/-- A two-byte token: a number shifted into the ValueStack (R232); a free value where the source gives none (U19, log
16). -/
def numberToken (hi lo : Byte) (s : State) : State :=
  match tokenNumber? hi lo with
  | some v => shiftIn v s
  | none => let r := takeFree s; shiftIn r.1 r.2

/-- A token of four or more bytes: a register name, its address shifted into the ValueStack (R233, R236); a free value where
the spec leaves it open (U19, logs 16 and 17). -/
def nameToken (tok : List Byte) (s : State) : State :=
  match resolveName? tok with
  | some v => shiftIn v s
  | none => let r := takeFree s; shiftIn r.1 r.2

/-- A delimiter, by `tlen`: 0 is ignored (R223), 1 is a command (R224), 2 a number (R232), 3 does nothing (R234), 4 or more
a name (R233). -/
def delimiter (s : State) : Fetched :=
  match s.tok with
  | [] => .done s
  | [c] =>
    match decodeChar c with
    | .ok i => .instr i { s with issuer := some .main }
    | .error _ => .done s
  | [hi, lo] => .done (numberToken hi lo s)
  | [_, _, _] => .done s
  | tok => .done (nameToken tok s)

/-- A byte from the host (R221); none is taken while `rst` is asserted (log 12). -/
def fetchHost (b : Byte) (s : State) : Fetched :=
  if s.rst then .done s
  else if isDelimiter b then delimiter s
  else .done (tokenByte b s)

/-- The next event in serial order (R69); with nothing presented there is no strobe and nothing happens (R90, log 4). -/
def fetch (s : State) : Fetched :=
  match s.pending with
  | [] => .done s
  | .op issuer w :: q => fetchOp issuer w { s with pending := q }
  | .host b :: q => fetchHost b { s with pending := q }
  | .rst level :: q => .done (rstLevel level { s with pending := q })

/-- The instruction of `nbits` bits presented so that the very next step runs it: an operation word at the head of the
events, or the one-byte token in the token buffer and its delimiter at the head of the events; `rst` released. -/
def presentWord (s : State) (nbits w : Nat) : State :=
  if nbits = 8 then
    { s with tok := [upcase (BitVec.ofNat 8 w)], pending := .host 0x20 :: s.pending, rst := false }
  else { s with pending := .op none (BitVec.ofNat 16 w) :: s.pending, rst := false }

end Sys2Proof.Machine
end

