-- ==== Sys2Proof/Machine/Step.lean ====
section
/-! DEFINITION. One step of the machine: serve the next presented event (spec/00_scope.md R5, spec/20_memory.md R69). -/

namespace Sys2Proof.Machine

/-- Serve the next event: perform the instruction it spells, or take the event's own effect. -/
def step (s : State) : Host.Outcome State Fault Refusal :=
  match fetch s with
  | .instr i t => exec i t
  | .done t => .next t

/-- `s` with the instruction `w` of `nbits` bits presented, so that the next step runs exactly it (log 4). -/
def State.withFetchWord (s : State) (nbits w : Nat) : State := presentWord s nbits w

end Sys2Proof.Machine
end

