-- ==== Sys2Proof/Safety.lean ====
section
/-!
DEFINITION. The terms the claims use: the invariant of every reachable state (spec/10_state.md R43), the queue the ring
implements (spec/40_txring.md R135), the lane view of the debouncer (spec/42_debounce.md R171), sequences of operations,
and what counts as a run that supports claims (spec/60_exceptions.md R291).
-/

namespace Sys2Proof.Machine

/-- The unread bytes, oldest first (R135): `tx_buf[tx_rd], tx_buf[tx_rd + 1], ...`, `occ` of them. -/
def ringQueue (s : State) : List Byte := (List.range (occ s)).map fun k => ringRead s ((s.txRd + k) % s.cfg.txCap)

/-- From `s` to `t` the bytes were appended at the write cursor: the cursor advanced, each byte lies at its index, and every
other index reads as before (R130, R282). -/
def RingAppended (s t : State) (bytes : List Byte) : Prop :=
  t.txWr = (s.txWr + bytes.length) % s.cfg.txCap ∧
    (∀ (k : Nat) (h : k < bytes.length), ringRead t (s.txWr + k) = bytes[k]) ∧
    ∀ a : Nat, (∀ k : Nat, k < bytes.length → a % s.cfg.txCap ≠ (s.txWr + k) % s.cfg.txCap) →
      ringRead t a = ringRead s a

/-- The counter of lane `i`, `2*ct1[i] + ct0[i]` (R28). -/
def laneCount (s : State) (i : Nat) : Nat := 2 * (s.ct1.getLsbD i).toNat + (s.ct0.getLsbD i).toNat

/-- `changed[i]` of a TICK (R171): 1 exactly when the raw bit equals the stable bit. -/
def laneChanged (s : State) (raw : Byte) (i : Nat) : Bool := s.stable.getLsbD i == raw.getLsbD i

/-- Perform operations one after the other, stopping at the first that does not complete. -/
def performAll : List Instr → State → Host.Outcome State Fault Refusal
  | [], s => .next s
  | i :: is, s =>
    match exec i s with
    | .next t => performAll is t
    | .fault f => .fault f
    | .refused r => .refused r

/-- The eight commands of the interpreter (R224). -/
def isCommand : Instr → Bool
  | .who => true
  | .get => true
  | .set => true
  | .setTwice => true
  | .andSet => true
  | .orSet => true
  | .xorSet => true
  | .error _ => true
  | .nop => false
  | .tick _ => false
  | .pwmovf => false
  | .raise _ => false
  | .push _ => false
  | .drain => false
  | .evdrain => false
  | .press _ => false
  | .pwrstep => false
  | .loopstep _ => false

/-- The bytes of a command's reply (R225 to R231); `v` is the value a GET reads. -/
def replyBytes (p : Params) (v : Byte) : Instr → List Byte
  | .who => p.whoString ++ crlf
  | .get => hexByte v ++ crlf
  | .error _ => [0x21] ++ crlf
  | _ => crlf

/-- The operation is issued against the profile the run claims (R270), or from a declared context that is not its own
(R294). A RAISE out of range is a reserved word and never gets that far (R297). -/
def breaksProfile (i : Instr) (s : State) : Prop :=
  (i.wf s.cfg = true ∨ ∀ id, i ≠ .raise id) ∧
    ((∃ c d, i.context = some c ∧ s.issuer = some d ∧ d ≠ c) ∨
      (s.profile = .scheduled ∧ (i = .drain ∨ i = .evdrain ∨ (∃ m, i = .press m) ∨ i = .pwrstep)) ∨
      (s.profile = .scheduled ∧ s.slot ≠ 0 ∧ ((∃ b, i = .push b) ∨ isCommand i = true)))

/-- The instruction may push bytes in this state: PUSH, EVDRAIN, LOOPSTEP at slot 2, a command (R291). -/
def mayPush (i : Instr) (s : State) : Prop :=
  (∃ b, i = .push b) ∨ i = .evdrain ∨ (∃ r, i = .loopstep r ∧ s.slot = 2) ∨ isCommand i = true

/-- Equal but for the outputs of the last operation, which are no state of the block (R42). -/
def sameButOut (s t : State) : Prop := { s with out := t.out } = t

/-- Every unread byte of the ring was written since reset (R135). -/
def unreadWritten (s : State) : Prop :=
  ∀ k : Nat, k < occ s → (Memory.read? s.txBuf ((s.txRd + k) % s.cfg.txCap)).isSome = true

/-- Every byte of the token buffer is a token byte as R222 stores it: above `0x20` and no lowercase letter. -/
def tokenBytesOk (s : State) : Bool := s.tok.all fun c => isTokenByte c && !isLower c

/-- The invariant: R43, the parameters' constraints (R6), the canonical form and the range of the memories, flags only for
IDs in range (R26), the unread bytes written (R135), the token bytes normalised (R222), `n` at most 8 and `was8` with it
(R99). -/
structure StateInv (s : State) : Prop where
  cfg_wf : s.cfg.wf = true
  txWr_lt : s.txWr < s.cfg.txCap
  txRd_lt : s.txRd < s.cfg.txCap
  pwrIdx_lt : s.pwrIdx.toNat < s.cfg.pwrStepsLen
  outputs_eq : s.heaterOn = s.ledOn
  txBuf_wf : Memory.wf s.txBuf = true
  txBuf_within : Memory.within s.txBuf s.cfg.txCap = true
  unread_written : unreadWritten s
  events_in_range : ∀ j : Nat, s.evPending.getLsbD j = true → s.cfg.evMin ≤ j ∧ j ≤ s.cfg.evMax
  devMem_wf : Memory.wf s.devMem = true
  devMem_within : Memory.within s.devMem 256 = true
  token_ok : tokenBytesOk s = true
  rsp_n_le : s.out.rsp.n.toNat ≤ 8
  rsp_was8 : s.out.rsp.was8 = decide (s.out.rsp.n.toNat = 8)

/-- A state of a run that supports claims: no sticky mark (R291). -/
def vouched (s : State) : Bool := s.rsvdMark.isNone

/-- `k` steps all answered a next state and the state reached carries no mark: the run supports claims (R291). -/
def VouchedRun (k : Nat) (s t : State) : Prop := Sys2Proof.core.run k s = .next t ∧ vouched t = true

end Sys2Proof.Machine
end

