-- ==== Sys2Proof/Laws/Memory.lean ====
section
/-!
SUPPORT. The laws of byte memories: read after write, the canonical form and the address range are kept.
-/

namespace Sys2Proof.Machine

@[simp] theorem Memory.read?_nil (a : Nat) : Memory.read? [] a = none := rfl

theorem Memory.read?_cons (b : Nat) (v : Byte) (m : Memory) (a : Nat) :
    Memory.read? ((b, v) :: m) a = if a = b then some v else Memory.read? m a := rfl

/-- A read at the address written gives the byte written; every other address reads as before. -/
theorem Memory.read?_write (m : Memory) (a b : Nat) (v : Byte) :
    Memory.read? (Memory.write m a v) b = if b = a then some v else Memory.read? m b := by
  induction m with
  | nil => simp [Memory.write, Memory.read?]
  | cons c m ih =>
    obtain ⟨d, w⟩ := c
    unfold Memory.write
    split
    · simp [Memory.read?]
    · split
      · subst_vars
        simp only [Memory.read?]
        split <;> simp_all
      · simp only [Memory.read?, ih]
        split <;> split <;> simp_all

@[simp] theorem Memory.read?_write_self (m : Memory) (a : Nat) (v : Byte) :
    Memory.read? (Memory.write m a v) a = some v := by simp [Memory.read?_write]

theorem Memory.read?_write_of_ne (m : Memory) (v : Byte) {a b : Nat} (h : b ≠ a) :
    Memory.read? (Memory.write m a v) b = Memory.read? m b := by simp [Memory.read?_write, h]

theorem Memory.above_write {m : Memory} {a b : Nat} (v : Byte) (h : Memory.above m a = true) (hb : a < b) :
    Memory.above (Memory.write m b v) a = true := by
  induction m with
  | nil => simp [Memory.write, Memory.above, hb]
  | cons c m ih =>
    obtain ⟨d, w⟩ := c
    simp only [Memory.above, Bool.and_eq_true, decide_eq_true_eq] at h
    unfold Memory.write
    split
    · simp [Memory.above, hb, h.1, h.2]
    · split
      · subst_vars; simp [Memory.above, h.1, h.2]
      · simp [Memory.above, h.1, ih h.2]

theorem Memory.above_of_le {m : Memory} {a b : Nat} (h : Memory.above m a = true) (hb : b ≤ a) :
    Memory.above m b = true := by
  induction m with
  | nil => rfl
  | cons c m ih =>
    simp only [Memory.above, Bool.and_eq_true, decide_eq_true_eq] at h ⊢
    exact ⟨by omega, ih h.2⟩

/-- A write keeps the canonical form. -/
theorem Memory.wf_write {m : Memory} (a : Nat) (v : Byte) (h : Memory.wf m = true) :
    Memory.wf (Memory.write m a v) = true := by
  induction m with
  | nil => simp [Memory.write, Memory.wf, Memory.above]
  | cons c m ih =>
    obtain ⟨d, w⟩ := c
    simp only [Memory.wf, Bool.and_eq_true] at h
    unfold Memory.write
    split
    · rename_i hlt
      simp [Memory.wf, Memory.above, h.1, h.2, hlt, Memory.above_of_le h.1 (Nat.le_of_lt hlt)]
    · split
      · subst_vars; simp [Memory.wf, h.1, h.2]
      · simp [Memory.wf, ih h.2, Memory.above_write v h.1 (by omega : d < a)]

/-- A write below `n` keeps every address below `n`. -/
theorem Memory.within_write {m : Memory} {n a : Nat} (v : Byte) (h : Memory.within m n = true) (ha : a < n) :
    Memory.within (Memory.write m a v) n = true := by
  induction m with
  | nil => simpa [Memory.within, Memory.write] using ha
  | cons c m ih =>
    obtain ⟨d, w⟩ := c
    simp only [Memory.within, List.all_cons, Bool.and_eq_true, decide_eq_true_eq] at h ih
    unfold Memory.write
    split
    · simpa [Memory.within, ha, h.1] using h.2
    · split
      · simpa [Memory.within, ha] using h.2
      · simpa [Memory.within, h.1] using ih h.2

end Sys2Proof.Machine
end

