-- ==== Sys2Proof/Laws/State.lean ====
section
/-!
SUPPORT. What the shared record updates leave: one lemma per field, true by rfl.
-/

namespace Sys2Proof.Machine

section Respond

variable (s : State) (r : Rsp)

@[simp] theorem respond_txBuf : (respond r s).txBuf = s.txBuf := rfl
@[simp] theorem respond_txWr : (respond r s).txWr = s.txWr := rfl
@[simp] theorem respond_txRd : (respond r s).txRd = s.txRd := rfl
@[simp] theorem respond_txZlp : (respond r s).txZlp = s.txZlp := rfl
@[simp] theorem respond_evPending : (respond r s).evPending = s.evPending := rfl
@[simp] theorem respond_stable : (respond r s).stable = s.stable := rfl
@[simp] theorem respond_ct0 : (respond r s).ct0 = s.ct0 := rfl
@[simp] theorem respond_ct1 : (respond r s).ct1 = s.ct1 := rfl
@[simp] theorem respond_press : (respond r s).press = s.press := rfl
@[simp] theorem respond_pwrIdx : (respond r s).pwrIdx = s.pwrIdx := rfl
@[simp] theorem respond_pwmCnt : (respond r s).pwmCnt = s.pwmCnt := rfl
@[simp] theorem respond_heaterOn : (respond r s).heaterOn = s.heaterOn := rfl
@[simp] theorem respond_ledOn : (respond r s).ledOn = s.ledOn := rfl
@[simp] theorem respond_slot : (respond r s).slot = s.slot := rfl
@[simp] theorem respond_tok : (respond r s).tok = s.tok := rfl
@[simp] theorem respond_tos : (respond r s).tos = s.tos := rfl
@[simp] theorem respond_val : (respond r s).val = s.val := rfl
@[simp] theorem respond_val2 : (respond r s).val2 = s.val2 := rfl
@[simp] theorem respond_devMem : (respond r s).devMem = s.devMem := rfl
@[simp] theorem respond_pending : (respond r s).pending = s.pending := rfl
@[simp] theorem respond_rst : (respond r s).rst = s.rst := rfl
@[simp] theorem respond_issuer : (respond r s).issuer = s.issuer := rfl
@[simp] theorem respond_out : (respond r s).out = { rsp := r } := rfl
@[simp] theorem respond_cfg : (respond r s).cfg = s.cfg := rfl
@[simp] theorem respond_profile : (respond r s).profile = s.profile := rfl
@[simp] theorem respond_rsvdMark : (respond r s).rsvdMark = s.rsvdMark := rfl
@[simp] theorem respond_fresh : (respond r s).fresh = s.fresh := rfl
@[simp] theorem respond_epoch : (respond r s).epoch = s.epoch := rfl

end Respond

section RejectWord

variable (s : State) (w : OpWord)

@[simp] theorem rejectWord_txBuf : (rejectWord w s).txBuf = s.txBuf := rfl
@[simp] theorem rejectWord_txWr : (rejectWord w s).txWr = s.txWr := rfl
@[simp] theorem rejectWord_txRd : (rejectWord w s).txRd = s.txRd := rfl
@[simp] theorem rejectWord_txZlp : (rejectWord w s).txZlp = s.txZlp := rfl
@[simp] theorem rejectWord_evPending : (rejectWord w s).evPending = s.evPending := rfl
@[simp] theorem rejectWord_stable : (rejectWord w s).stable = s.stable := rfl
@[simp] theorem rejectWord_ct0 : (rejectWord w s).ct0 = s.ct0 := rfl
@[simp] theorem rejectWord_ct1 : (rejectWord w s).ct1 = s.ct1 := rfl
@[simp] theorem rejectWord_press : (rejectWord w s).press = s.press := rfl
@[simp] theorem rejectWord_pwrIdx : (rejectWord w s).pwrIdx = s.pwrIdx := rfl
@[simp] theorem rejectWord_pwmCnt : (rejectWord w s).pwmCnt = s.pwmCnt := rfl
@[simp] theorem rejectWord_heaterOn : (rejectWord w s).heaterOn = s.heaterOn := rfl
@[simp] theorem rejectWord_ledOn : (rejectWord w s).ledOn = s.ledOn := rfl
@[simp] theorem rejectWord_slot : (rejectWord w s).slot = s.slot := rfl
@[simp] theorem rejectWord_tok : (rejectWord w s).tok = s.tok := rfl
@[simp] theorem rejectWord_tos : (rejectWord w s).tos = s.tos := rfl
@[simp] theorem rejectWord_val : (rejectWord w s).val = s.val := rfl
@[simp] theorem rejectWord_val2 : (rejectWord w s).val2 = s.val2 := rfl
@[simp] theorem rejectWord_devMem : (rejectWord w s).devMem = s.devMem := rfl
@[simp] theorem rejectWord_pending : (rejectWord w s).pending = s.pending := rfl
@[simp] theorem rejectWord_rst : (rejectWord w s).rst = s.rst := rfl
@[simp] theorem rejectWord_issuer : (rejectWord w s).issuer = s.issuer := rfl
@[simp] theorem rejectWord_out : (rejectWord w s).out = { rsp := { err := true } } := rfl
@[simp] theorem rejectWord_cfg : (rejectWord w s).cfg = s.cfg := rfl
@[simp] theorem rejectWord_profile : (rejectWord w s).profile = s.profile := rfl
@[simp] theorem rejectWord_rsvdMark : (rejectWord w s).rsvdMark = s.rsvdMark.or (some w) := rfl
@[simp] theorem rejectWord_fresh : (rejectWord w s).fresh = s.fresh := rfl
@[simp] theorem rejectWord_epoch : (rejectWord w s).epoch = s.epoch := rfl

end RejectWord

section RingWrite

variable (s : State) (a : Nat) (v : Byte)

@[simp] theorem ringWrite_txBuf : (ringWrite s a v).txBuf = Memory.write s.txBuf (a % s.cfg.txCap) v := rfl
@[simp] theorem ringWrite_txWr : (ringWrite s a v).txWr = s.txWr := rfl
@[simp] theorem ringWrite_txRd : (ringWrite s a v).txRd = s.txRd := rfl
@[simp] theorem ringWrite_txZlp : (ringWrite s a v).txZlp = s.txZlp := rfl
@[simp] theorem ringWrite_evPending : (ringWrite s a v).evPending = s.evPending := rfl
@[simp] theorem ringWrite_stable : (ringWrite s a v).stable = s.stable := rfl
@[simp] theorem ringWrite_ct0 : (ringWrite s a v).ct0 = s.ct0 := rfl
@[simp] theorem ringWrite_ct1 : (ringWrite s a v).ct1 = s.ct1 := rfl
@[simp] theorem ringWrite_press : (ringWrite s a v).press = s.press := rfl
@[simp] theorem ringWrite_pwrIdx : (ringWrite s a v).pwrIdx = s.pwrIdx := rfl
@[simp] theorem ringWrite_pwmCnt : (ringWrite s a v).pwmCnt = s.pwmCnt := rfl
@[simp] theorem ringWrite_heaterOn : (ringWrite s a v).heaterOn = s.heaterOn := rfl
@[simp] theorem ringWrite_ledOn : (ringWrite s a v).ledOn = s.ledOn := rfl
@[simp] theorem ringWrite_slot : (ringWrite s a v).slot = s.slot := rfl
@[simp] theorem ringWrite_tok : (ringWrite s a v).tok = s.tok := rfl
@[simp] theorem ringWrite_tos : (ringWrite s a v).tos = s.tos := rfl
@[simp] theorem ringWrite_val : (ringWrite s a v).val = s.val := rfl
@[simp] theorem ringWrite_val2 : (ringWrite s a v).val2 = s.val2 := rfl
@[simp] theorem ringWrite_devMem : (ringWrite s a v).devMem = s.devMem := rfl
@[simp] theorem ringWrite_pending : (ringWrite s a v).pending = s.pending := rfl
@[simp] theorem ringWrite_rst : (ringWrite s a v).rst = s.rst := rfl
@[simp] theorem ringWrite_issuer : (ringWrite s a v).issuer = s.issuer := rfl
@[simp] theorem ringWrite_out : (ringWrite s a v).out = s.out := rfl
@[simp] theorem ringWrite_cfg : (ringWrite s a v).cfg = s.cfg := rfl
@[simp] theorem ringWrite_profile : (ringWrite s a v).profile = s.profile := rfl
@[simp] theorem ringWrite_rsvdMark : (ringWrite s a v).rsvdMark = s.rsvdMark := rfl
@[simp] theorem ringWrite_fresh : (ringWrite s a v).fresh = s.fresh := rfl
@[simp] theorem ringWrite_epoch : (ringWrite s a v).epoch = s.epoch := rfl

end RingWrite

section TickBody

variable (s : State) (raw : Byte)

@[simp] theorem tickBody_txBuf : (tickBody raw s).txBuf = s.txBuf := rfl
@[simp] theorem tickBody_txWr : (tickBody raw s).txWr = s.txWr := rfl
@[simp] theorem tickBody_txRd : (tickBody raw s).txRd = s.txRd := rfl
@[simp] theorem tickBody_txZlp : (tickBody raw s).txZlp = s.txZlp := rfl
@[simp] theorem tickBody_evPending : (tickBody raw s).evPending = s.evPending := rfl
@[simp] theorem tickBody_pwrIdx : (tickBody raw s).pwrIdx = s.pwrIdx := rfl
@[simp] theorem tickBody_pwmCnt : (tickBody raw s).pwmCnt = s.pwmCnt := rfl
@[simp] theorem tickBody_heaterOn : (tickBody raw s).heaterOn = s.heaterOn := rfl
@[simp] theorem tickBody_ledOn : (tickBody raw s).ledOn = s.ledOn := rfl
@[simp] theorem tickBody_slot : (tickBody raw s).slot = s.slot := rfl
@[simp] theorem tickBody_tok : (tickBody raw s).tok = s.tok := rfl
@[simp] theorem tickBody_tos : (tickBody raw s).tos = s.tos := rfl
@[simp] theorem tickBody_val : (tickBody raw s).val = s.val := rfl
@[simp] theorem tickBody_val2 : (tickBody raw s).val2 = s.val2 := rfl
@[simp] theorem tickBody_devMem : (tickBody raw s).devMem = s.devMem := rfl
@[simp] theorem tickBody_pending : (tickBody raw s).pending = s.pending := rfl
@[simp] theorem tickBody_rst : (tickBody raw s).rst = s.rst := rfl
@[simp] theorem tickBody_issuer : (tickBody raw s).issuer = s.issuer := rfl
@[simp] theorem tickBody_out : (tickBody raw s).out = s.out := rfl
@[simp] theorem tickBody_cfg : (tickBody raw s).cfg = s.cfg := rfl
@[simp] theorem tickBody_profile : (tickBody raw s).profile = s.profile := rfl
@[simp] theorem tickBody_rsvdMark : (tickBody raw s).rsvdMark = s.rsvdMark := rfl
@[simp] theorem tickBody_fresh : (tickBody raw s).fresh = s.fresh := rfl
@[simp] theorem tickBody_epoch : (tickBody raw s).epoch = s.epoch := rfl

end TickBody

section DrainBody

variable (s : State) 

@[simp] theorem drainBody_txBuf : (drainBody s).txBuf = s.txBuf := rfl
@[simp] theorem drainBody_txWr : (drainBody s).txWr = s.txWr := rfl
@[simp] theorem drainBody_txRd : (drainBody s).txRd = (s.txRd + drainCount s) % s.cfg.txCap := rfl
@[simp] theorem drainBody_txZlp : (drainBody s).txZlp = zlpAfterDrain (drainCount s) ((s.txRd + drainCount s) % s.cfg.txCap) s.txWr := rfl
@[simp] theorem drainBody_evPending : (drainBody s).evPending = s.evPending := rfl
@[simp] theorem drainBody_stable : (drainBody s).stable = s.stable := rfl
@[simp] theorem drainBody_ct0 : (drainBody s).ct0 = s.ct0 := rfl
@[simp] theorem drainBody_ct1 : (drainBody s).ct1 = s.ct1 := rfl
@[simp] theorem drainBody_press : (drainBody s).press = s.press := rfl
@[simp] theorem drainBody_pwrIdx : (drainBody s).pwrIdx = s.pwrIdx := rfl
@[simp] theorem drainBody_pwmCnt : (drainBody s).pwmCnt = s.pwmCnt := rfl
@[simp] theorem drainBody_heaterOn : (drainBody s).heaterOn = s.heaterOn := rfl
@[simp] theorem drainBody_ledOn : (drainBody s).ledOn = s.ledOn := rfl
@[simp] theorem drainBody_slot : (drainBody s).slot = s.slot := rfl
@[simp] theorem drainBody_tok : (drainBody s).tok = s.tok := rfl
@[simp] theorem drainBody_tos : (drainBody s).tos = s.tos := rfl
@[simp] theorem drainBody_val : (drainBody s).val = s.val := rfl
@[simp] theorem drainBody_val2 : (drainBody s).val2 = s.val2 := rfl
@[simp] theorem drainBody_devMem : (drainBody s).devMem = s.devMem := rfl
@[simp] theorem drainBody_pending : (drainBody s).pending = s.pending := rfl
@[simp] theorem drainBody_rst : (drainBody s).rst = s.rst := rfl
@[simp] theorem drainBody_issuer : (drainBody s).issuer = s.issuer := rfl
@[simp] theorem drainBody_cfg : (drainBody s).cfg = s.cfg := rfl
@[simp] theorem drainBody_profile : (drainBody s).profile = s.profile := rfl
@[simp] theorem drainBody_rsvdMark : (drainBody s).rsvdMark = s.rsvdMark := rfl
@[simp] theorem drainBody_fresh : (drainBody s).fresh = s.fresh + 8 := rfl
@[simp] theorem drainBody_epoch : (drainBody s).epoch = s.epoch := rfl

end DrainBody

section PressBody

variable (s : State) (mask : Byte)

@[simp] theorem pressBody_txBuf : (pressBody mask s).txBuf = s.txBuf := rfl
@[simp] theorem pressBody_txWr : (pressBody mask s).txWr = s.txWr := rfl
@[simp] theorem pressBody_txRd : (pressBody mask s).txRd = s.txRd := rfl
@[simp] theorem pressBody_txZlp : (pressBody mask s).txZlp = s.txZlp := rfl
@[simp] theorem pressBody_evPending : (pressBody mask s).evPending = s.evPending := rfl
@[simp] theorem pressBody_stable : (pressBody mask s).stable = s.stable := rfl
@[simp] theorem pressBody_ct0 : (pressBody mask s).ct0 = s.ct0 := rfl
@[simp] theorem pressBody_ct1 : (pressBody mask s).ct1 = s.ct1 := rfl
@[simp] theorem pressBody_press : (pressBody mask s).press = s.press &&& ~~~(s.press &&& mask) := rfl
@[simp] theorem pressBody_pwrIdx : (pressBody mask s).pwrIdx = s.pwrIdx := rfl
@[simp] theorem pressBody_pwmCnt : (pressBody mask s).pwmCnt = s.pwmCnt := rfl
@[simp] theorem pressBody_heaterOn : (pressBody mask s).heaterOn = s.heaterOn := rfl
@[simp] theorem pressBody_ledOn : (pressBody mask s).ledOn = s.ledOn := rfl
@[simp] theorem pressBody_slot : (pressBody mask s).slot = s.slot := rfl
@[simp] theorem pressBody_tok : (pressBody mask s).tok = s.tok := rfl
@[simp] theorem pressBody_tos : (pressBody mask s).tos = s.tos := rfl
@[simp] theorem pressBody_val : (pressBody mask s).val = s.val := rfl
@[simp] theorem pressBody_val2 : (pressBody mask s).val2 = s.val2 := rfl
@[simp] theorem pressBody_devMem : (pressBody mask s).devMem = s.devMem := rfl
@[simp] theorem pressBody_pending : (pressBody mask s).pending = s.pending := rfl
@[simp] theorem pressBody_rst : (pressBody mask s).rst = s.rst := rfl
@[simp] theorem pressBody_issuer : (pressBody mask s).issuer = s.issuer := rfl
@[simp] theorem pressBody_out : (pressBody mask s).out = { rsp := { pressed := s.press &&& mask } } := rfl
@[simp] theorem pressBody_cfg : (pressBody mask s).cfg = s.cfg := rfl
@[simp] theorem pressBody_profile : (pressBody mask s).profile = s.profile := rfl
@[simp] theorem pressBody_rsvdMark : (pressBody mask s).rsvdMark = s.rsvdMark := rfl
@[simp] theorem pressBody_fresh : (pressBody mask s).fresh = s.fresh := rfl
@[simp] theorem pressBody_epoch : (pressBody mask s).epoch = s.epoch := rfl

end PressBody

section ShiftIn

variable (s : State) (v : Byte)

@[simp] theorem shiftIn_txBuf : (shiftIn v s).txBuf = s.txBuf := rfl
@[simp] theorem shiftIn_txWr : (shiftIn v s).txWr = s.txWr := rfl
@[simp] theorem shiftIn_txRd : (shiftIn v s).txRd = s.txRd := rfl
@[simp] theorem shiftIn_txZlp : (shiftIn v s).txZlp = s.txZlp := rfl
@[simp] theorem shiftIn_evPending : (shiftIn v s).evPending = s.evPending := rfl
@[simp] theorem shiftIn_stable : (shiftIn v s).stable = s.stable := rfl
@[simp] theorem shiftIn_ct0 : (shiftIn v s).ct0 = s.ct0 := rfl
@[simp] theorem shiftIn_ct1 : (shiftIn v s).ct1 = s.ct1 := rfl
@[simp] theorem shiftIn_press : (shiftIn v s).press = s.press := rfl
@[simp] theorem shiftIn_pwrIdx : (shiftIn v s).pwrIdx = s.pwrIdx := rfl
@[simp] theorem shiftIn_pwmCnt : (shiftIn v s).pwmCnt = s.pwmCnt := rfl
@[simp] theorem shiftIn_heaterOn : (shiftIn v s).heaterOn = s.heaterOn := rfl
@[simp] theorem shiftIn_ledOn : (shiftIn v s).ledOn = s.ledOn := rfl
@[simp] theorem shiftIn_slot : (shiftIn v s).slot = s.slot := rfl
@[simp] theorem shiftIn_tok : (shiftIn v s).tok = [] := rfl
@[simp] theorem shiftIn_tos : (shiftIn v s).tos = v := rfl
@[simp] theorem shiftIn_val : (shiftIn v s).val = s.tos := rfl
@[simp] theorem shiftIn_val2 : (shiftIn v s).val2 = s.val := rfl
@[simp] theorem shiftIn_devMem : (shiftIn v s).devMem = s.devMem := rfl
@[simp] theorem shiftIn_pending : (shiftIn v s).pending = s.pending := rfl
@[simp] theorem shiftIn_rst : (shiftIn v s).rst = s.rst := rfl
@[simp] theorem shiftIn_issuer : (shiftIn v s).issuer = s.issuer := rfl
@[simp] theorem shiftIn_out : (shiftIn v s).out = s.out := rfl
@[simp] theorem shiftIn_cfg : (shiftIn v s).cfg = s.cfg := rfl
@[simp] theorem shiftIn_profile : (shiftIn v s).profile = s.profile := rfl
@[simp] theorem shiftIn_rsvdMark : (shiftIn v s).rsvdMark = s.rsvdMark := rfl
@[simp] theorem shiftIn_fresh : (shiftIn v s).fresh = s.fresh := rfl
@[simp] theorem shiftIn_epoch : (shiftIn v s).epoch = s.epoch := rfl

end ShiftIn

section TokenByte

variable (s : State) (b : Byte)

@[simp] theorem tokenByte_txBuf : (tokenByte b s).txBuf = s.txBuf := rfl
@[simp] theorem tokenByte_txWr : (tokenByte b s).txWr = s.txWr := rfl
@[simp] theorem tokenByte_txRd : (tokenByte b s).txRd = s.txRd := rfl
@[simp] theorem tokenByte_txZlp : (tokenByte b s).txZlp = s.txZlp := rfl
@[simp] theorem tokenByte_evPending : (tokenByte b s).evPending = s.evPending := rfl
@[simp] theorem tokenByte_stable : (tokenByte b s).stable = s.stable := rfl
@[simp] theorem tokenByte_ct0 : (tokenByte b s).ct0 = s.ct0 := rfl
@[simp] theorem tokenByte_ct1 : (tokenByte b s).ct1 = s.ct1 := rfl
@[simp] theorem tokenByte_press : (tokenByte b s).press = s.press := rfl
@[simp] theorem tokenByte_pwrIdx : (tokenByte b s).pwrIdx = s.pwrIdx := rfl
@[simp] theorem tokenByte_pwmCnt : (tokenByte b s).pwmCnt = s.pwmCnt := rfl
@[simp] theorem tokenByte_heaterOn : (tokenByte b s).heaterOn = s.heaterOn := rfl
@[simp] theorem tokenByte_ledOn : (tokenByte b s).ledOn = s.ledOn := rfl
@[simp] theorem tokenByte_slot : (tokenByte b s).slot = s.slot := rfl
@[simp] theorem tokenByte_tok : (tokenByte b s).tok = s.tok ++ [upcase b] := rfl
@[simp] theorem tokenByte_tos : (tokenByte b s).tos = s.tos := rfl
@[simp] theorem tokenByte_val : (tokenByte b s).val = s.val := rfl
@[simp] theorem tokenByte_val2 : (tokenByte b s).val2 = s.val2 := rfl
@[simp] theorem tokenByte_devMem : (tokenByte b s).devMem = s.devMem := rfl
@[simp] theorem tokenByte_pending : (tokenByte b s).pending = s.pending := rfl
@[simp] theorem tokenByte_rst : (tokenByte b s).rst = s.rst := rfl
@[simp] theorem tokenByte_issuer : (tokenByte b s).issuer = s.issuer := rfl
@[simp] theorem tokenByte_out : (tokenByte b s).out = s.out := rfl
@[simp] theorem tokenByte_cfg : (tokenByte b s).cfg = s.cfg := rfl
@[simp] theorem tokenByte_profile : (tokenByte b s).profile = s.profile := rfl
@[simp] theorem tokenByte_rsvdMark : (tokenByte b s).rsvdMark = s.rsvdMark := rfl
@[simp] theorem tokenByte_fresh : (tokenByte b s).fresh = s.fresh := rfl
@[simp] theorem tokenByte_epoch : (tokenByte b s).epoch = s.epoch := rfl

end TokenByte

section ClearOut

variable (s : State) 

@[simp] theorem clearOut_txBuf : (clearOut s).txBuf = s.txBuf := rfl
@[simp] theorem clearOut_txWr : (clearOut s).txWr = s.txWr := rfl
@[simp] theorem clearOut_txRd : (clearOut s).txRd = s.txRd := rfl
@[simp] theorem clearOut_txZlp : (clearOut s).txZlp = s.txZlp := rfl
@[simp] theorem clearOut_evPending : (clearOut s).evPending = s.evPending := rfl
@[simp] theorem clearOut_stable : (clearOut s).stable = s.stable := rfl
@[simp] theorem clearOut_ct0 : (clearOut s).ct0 = s.ct0 := rfl
@[simp] theorem clearOut_ct1 : (clearOut s).ct1 = s.ct1 := rfl
@[simp] theorem clearOut_press : (clearOut s).press = s.press := rfl
@[simp] theorem clearOut_pwrIdx : (clearOut s).pwrIdx = s.pwrIdx := rfl
@[simp] theorem clearOut_pwmCnt : (clearOut s).pwmCnt = s.pwmCnt := rfl
@[simp] theorem clearOut_heaterOn : (clearOut s).heaterOn = s.heaterOn := rfl
@[simp] theorem clearOut_ledOn : (clearOut s).ledOn = s.ledOn := rfl
@[simp] theorem clearOut_slot : (clearOut s).slot = s.slot := rfl
@[simp] theorem clearOut_tok : (clearOut s).tok = s.tok := rfl
@[simp] theorem clearOut_tos : (clearOut s).tos = s.tos := rfl
@[simp] theorem clearOut_val : (clearOut s).val = s.val := rfl
@[simp] theorem clearOut_val2 : (clearOut s).val2 = s.val2 := rfl
@[simp] theorem clearOut_devMem : (clearOut s).devMem = s.devMem := rfl
@[simp] theorem clearOut_pending : (clearOut s).pending = s.pending := rfl
@[simp] theorem clearOut_rst : (clearOut s).rst = s.rst := rfl
@[simp] theorem clearOut_issuer : (clearOut s).issuer = s.issuer := rfl
@[simp] theorem clearOut_out : (clearOut s).out = {} := rfl
@[simp] theorem clearOut_cfg : (clearOut s).cfg = s.cfg := rfl
@[simp] theorem clearOut_profile : (clearOut s).profile = s.profile := rfl
@[simp] theorem clearOut_rsvdMark : (clearOut s).rsvdMark = s.rsvdMark := rfl
@[simp] theorem clearOut_fresh : (clearOut s).fresh = s.fresh := rfl
@[simp] theorem clearOut_epoch : (clearOut s).epoch = s.epoch := rfl

end ClearOut

section DevWrite

variable (s : State) (a v : Byte)

@[simp] theorem devWrite_txBuf : (devWrite a v s).txBuf = s.txBuf := rfl
@[simp] theorem devWrite_txWr : (devWrite a v s).txWr = s.txWr := rfl
@[simp] theorem devWrite_txRd : (devWrite a v s).txRd = s.txRd := rfl
@[simp] theorem devWrite_txZlp : (devWrite a v s).txZlp = s.txZlp := rfl
@[simp] theorem devWrite_evPending : (devWrite a v s).evPending = s.evPending := rfl
@[simp] theorem devWrite_stable : (devWrite a v s).stable = s.stable := rfl
@[simp] theorem devWrite_ct0 : (devWrite a v s).ct0 = s.ct0 := rfl
@[simp] theorem devWrite_ct1 : (devWrite a v s).ct1 = s.ct1 := rfl
@[simp] theorem devWrite_press : (devWrite a v s).press = s.press := rfl
@[simp] theorem devWrite_pwrIdx : (devWrite a v s).pwrIdx = s.pwrIdx := rfl
@[simp] theorem devWrite_pwmCnt : (devWrite a v s).pwmCnt = s.pwmCnt := rfl
@[simp] theorem devWrite_heaterOn : (devWrite a v s).heaterOn = s.heaterOn := rfl
@[simp] theorem devWrite_ledOn : (devWrite a v s).ledOn = s.ledOn := rfl
@[simp] theorem devWrite_slot : (devWrite a v s).slot = s.slot := rfl
@[simp] theorem devWrite_tok : (devWrite a v s).tok = s.tok := rfl
@[simp] theorem devWrite_tos : (devWrite a v s).tos = s.tos := rfl
@[simp] theorem devWrite_val : (devWrite a v s).val = s.val := rfl
@[simp] theorem devWrite_val2 : (devWrite a v s).val2 = s.val2 := rfl
@[simp] theorem devWrite_devMem : (devWrite a v s).devMem = if isStorage s.cfg a then Memory.write s.devMem a.toNat v else s.devMem := rfl
@[simp] theorem devWrite_pending : (devWrite a v s).pending = s.pending := rfl
@[simp] theorem devWrite_rst : (devWrite a v s).rst = s.rst := rfl
@[simp] theorem devWrite_issuer : (devWrite a v s).issuer = s.issuer := rfl
@[simp] theorem devWrite_out : (devWrite a v s).out = { s.out with regBus := s.out.regBus ++ [.write a v] } := rfl
@[simp] theorem devWrite_cfg : (devWrite a v s).cfg = s.cfg := rfl
@[simp] theorem devWrite_profile : (devWrite a v s).profile = s.profile := rfl
@[simp] theorem devWrite_rsvdMark : (devWrite a v s).rsvdMark = s.rsvdMark := rfl
@[simp] theorem devWrite_fresh : (devWrite a v s).fresh = s.fresh := rfl
@[simp] theorem devWrite_epoch : (devWrite a v s).epoch = s.epoch := rfl

end DevWrite

section FinishSlot

variable (old : SlotNo) (r : State × Bool)

@[simp] theorem finishSlot_txBuf : (finishSlot old r).txBuf = r.1.txBuf := rfl
@[simp] theorem finishSlot_txWr : (finishSlot old r).txWr = r.1.txWr := rfl
@[simp] theorem finishSlot_txRd : (finishSlot old r).txRd = r.1.txRd := rfl
@[simp] theorem finishSlot_txZlp : (finishSlot old r).txZlp = r.1.txZlp := rfl
@[simp] theorem finishSlot_evPending : (finishSlot old r).evPending = r.1.evPending := rfl
@[simp] theorem finishSlot_stable : (finishSlot old r).stable = r.1.stable := rfl
@[simp] theorem finishSlot_ct0 : (finishSlot old r).ct0 = r.1.ct0 := rfl
@[simp] theorem finishSlot_ct1 : (finishSlot old r).ct1 = r.1.ct1 := rfl
@[simp] theorem finishSlot_press : (finishSlot old r).press = r.1.press := rfl
@[simp] theorem finishSlot_pwrIdx : (finishSlot old r).pwrIdx = r.1.pwrIdx := rfl
@[simp] theorem finishSlot_pwmCnt : (finishSlot old r).pwmCnt = r.1.pwmCnt := rfl
@[simp] theorem finishSlot_heaterOn : (finishSlot old r).heaterOn = r.1.heaterOn := rfl
@[simp] theorem finishSlot_ledOn : (finishSlot old r).ledOn = r.1.ledOn := rfl
@[simp] theorem finishSlot_slot : (finishSlot old r).slot = old + 1 := rfl
@[simp] theorem finishSlot_tok : (finishSlot old r).tok = r.1.tok := rfl
@[simp] theorem finishSlot_tos : (finishSlot old r).tos = r.1.tos := rfl
@[simp] theorem finishSlot_val : (finishSlot old r).val = r.1.val := rfl
@[simp] theorem finishSlot_val2 : (finishSlot old r).val2 = r.1.val2 := rfl
@[simp] theorem finishSlot_devMem : (finishSlot old r).devMem = r.1.devMem := rfl
@[simp] theorem finishSlot_pending : (finishSlot old r).pending = r.1.pending := rfl
@[simp] theorem finishSlot_rst : (finishSlot old r).rst = r.1.rst := rfl
@[simp] theorem finishSlot_issuer : (finishSlot old r).issuer = r.1.issuer := rfl
@[simp] theorem finishSlot_out : (finishSlot old r).out = { r.1.out with rsp := { r.1.out.rsp with slot := old, did := r.2 } } := rfl
@[simp] theorem finishSlot_cfg : (finishSlot old r).cfg = r.1.cfg := rfl
@[simp] theorem finishSlot_profile : (finishSlot old r).profile = r.1.profile := rfl
@[simp] theorem finishSlot_rsvdMark : (finishSlot old r).rsvdMark = r.1.rsvdMark := rfl
@[simp] theorem finishSlot_fresh : (finishSlot old r).fresh = r.1.fresh := rfl
@[simp] theorem finishSlot_epoch : (finishSlot old r).epoch = r.1.epoch := rfl

end FinishSlot

end Sys2Proof.Machine
end

