-- ==== Sys2Proof/Laws/Ring.lean ====
section
/-!
SUPPORT. The laws of the ring: the occupancy as the cursors move, one push, a sequence of pushes, a drain.
-/

namespace Sys2Proof.Machine

theorem txCap_pos (p : Params) : 0 < p.txCap := Nat.two_pow_pos _

/-- The occupancy is below the capacity (R25). -/
theorem occ_lt (s : State) : occ s < s.cfg.txCap := Nat.mod_lt _ (txCap_pos _)

/-- The occupancy depends on the cursors and the capacity alone (R25). -/
theorem occ_congr {s t : State} (hc : t.cfg = s.cfg) (hw : t.txWr = s.txWr) (hr : t.txRd = s.txRd) : occ t = occ s := by
  simp [occ, hc, hw, hr]

/-- The write cursor lies `occ` places after the read cursor. -/
theorem rd_add_occ (s : State) : (s.txRd + occ s) % s.cfg.txCap = s.txWr % s.cfg.txCap := by
  have hc := txCap_pos s.cfg
  have hr := Nat.mod_lt s.txRd hc
  have hd := Nat.div_add_mod s.txRd s.cfg.txCap
  unfold occ
  rw [Nat.add_mod_mod]
  have : s.txRd + (s.txWr + (s.cfg.txCap - s.txRd % s.cfg.txCap))
      = s.txWr + s.cfg.txCap * (s.txRd / s.cfg.txCap + 1) := by
    rw [Nat.mul_add]; omega
  rw [this, Nat.add_mul_mod_self_left]

/-- A number below the capacity that lies at the write cursor is the occupancy. -/
theorem occ_unique {s : State} {n : Nat} (hn : n < s.cfg.txCap)
    (h : (s.txRd + n) % s.cfg.txCap = s.txWr % s.cfg.txCap) : occ s = n := by
  have h2 := rd_add_occ s
  rw [← h] at h2
  have := Nat.ModEq.add_left_cancel' s.txRd (show s.txRd + occ s ≡ s.txRd + n [MOD s.cfg.txCap] from h2)
  rwa [Nat.ModEq, Nat.mod_eq_of_lt (occ_lt s), Nat.mod_eq_of_lt hn] at this

/-- The ring is empty exactly when the cursors name the same element (R25). -/
theorem occ_eq_zero_iff (s : State) : occ s = 0 ↔ s.txWr % s.cfg.txCap = s.txRd % s.cfg.txCap := by
  constructor
  · intro h
    have := rd_add_occ s
    rw [h] at this
    simpa using this.symm
  · intro h
    exact occ_unique (txCap_pos _) (by simpa using h.symm)

/-- The occupancy after the write cursor advanced by `n` with room for it. -/
theorem occ_advance_wr {s t : State} {n : Nat} (hc : t.cfg = s.cfg) (hr : t.txRd = s.txRd)
    (hw : t.txWr % s.cfg.txCap = (s.txWr + n) % s.cfg.txCap) (hn : occ s + n < s.cfg.txCap) : occ t = occ s + n := by
  refine occ_unique (by rw [hc]; exact hn) ?_
  rw [hc, hr, hw, ← Nat.add_assoc, Nat.add_mod, rd_add_occ, ← Nat.add_mod]

/-- The occupancy after the read cursor advanced by `n` unread bytes. -/
theorem occ_advance_rd {s t : State} {n : Nat} (hc : t.cfg = s.cfg) (hw : t.txWr = s.txWr)
    (hr : t.txRd % s.cfg.txCap = (s.txRd + n) % s.cfg.txCap) (hn : n ≤ occ s) : occ t = occ s - n := by
  have hlt := occ_lt s
  refine occ_unique (by rw [hc]; omega) ?_
  rw [hc, hw, Nat.add_mod, hr, ← Nat.add_mod, Nat.add_assoc, Nat.add_sub_cancel' hn, rd_add_occ]

theorem ringRead_mod (s : State) (a : Nat) : ringRead s (a % s.cfg.txCap) = ringRead s a := by
  simp [ringRead]

/-- A read of the ring depends on its cells, its capacity and the reset number alone. -/
theorem ringRead_congr {s t : State} (hc : t.cfg = s.cfg) (hb : t.txBuf = s.txBuf) (he : t.epoch = s.epoch) (a : Nat) :
    ringRead t a = ringRead s a := by
  simp [ringRead, hc, hb, he]

/-- `MemRead` after `MemWrite` (R62). -/
theorem ringRead_ringWrite (s : State) (a b : Nat) (v : Byte) :
    ringRead (ringWrite s a v) b = if b % s.cfg.txCap = a % s.cfg.txCap then v else ringRead s b := by
  simp only [ringRead, ringWrite, Memory.read?_write]
  split <;> simp_all

/-- The state after one push that fits. -/
def pushed (b : Byte) (s : State) : State :=
  { ringWrite s s.txWr b with txWr := (s.txWr + 1) % s.cfg.txCap }

/-- All that one push can do (R130, R131). -/
theorem pushByte_cases (b : Byte) (s : State) :
    (occ s = s.cfg.txCap - 1 ∧ pushByte b s = .error (.txOvf b s.txWr s.txRd)) ∨
      (occ s + 1 < s.cfg.txCap ∧ pushByte b s = .ok (pushed b s)) := by
  have := occ_lt s
  by_cases h : occ s = s.cfg.txCap - 1
  · exact .inl ⟨h, by simp [pushByte, h]⟩
  · exact .inr ⟨by omega, by simp [pushByte, h, pushed]⟩

theorem occ_pushed {b : Byte} {s : State} (h : occ s + 1 < s.cfg.txCap) : occ (pushed b s) = occ s + 1 :=
  occ_advance_wr (s := s) rfl rfl (by simp [pushed]) h

theorem ringRead_pushed (b : Byte) (s : State) (a : Nat) :
    ringRead (pushed b s) a = if a % s.cfg.txCap = s.txWr % s.cfg.txCap then b else ringRead s a := by
  rw [← ringRead_ringWrite]
  exact ringRead_congr rfl rfl rfl a

/-- All that a sequence of pushes can do when it answers a state: the bytes were appended, there was room for them, and
nothing but the ring and its write cursor changed (R130). -/
theorem pushAll_ok_spec {bs : List Byte} {s t : State} (h : pushAll bs s = .ok t) (hne : bs ≠ []) :
    occ s + bs.length < s.cfg.txCap ∧ RingAppended s t bs ∧ t = { s with txBuf := t.txBuf, txWr := t.txWr } := by
  induction bs generalizing s with
  | nil => exact absurd rfl hne
  | cons b bs ih =>
    rcases pushByte_cases b s with ⟨-, he⟩ | ⟨hroom, he⟩
    · simp [pushAll, he] at h
    · simp only [pushAll, he] at h
      have hcap : (pushed b s).cfg = s.cfg := rfl
      have hwr : (pushed b s).txWr = (s.txWr + 1) % s.cfg.txCap := rfl
      by_cases hbs : bs = []
      · subst hbs
        simp only [pushAll, Except.ok.injEq] at h
        subst h
        refine ⟨by simpa using hroom, ⟨by simp [hwr], ?_, ?_⟩, rfl⟩
        · intro k hk
          have : k = 0 := by simpa using hk
          subst this
          simp [ringRead_pushed]
        · intro a ha
          have := ha 0 (by simp)
          simp only [Nat.add_zero] at this
          simp [ringRead_pushed, this]
      · obtain ⟨ih1, ⟨ih2, ih3, ih4⟩, ih5⟩ := ih h hbs
        rw [occ_pushed hroom] at ih1
        rw [hcap] at ih1 ih2 ih4
        have hlen : bs.length + 1 < s.cfg.txCap := by omega
        have hmod : ∀ k, ((s.txWr + 1) % s.cfg.txCap + k) % s.cfg.txCap = (s.txWr + (k + 1)) % s.cfg.txCap := by
          intro k; rw [Nat.mod_add_mod]; congr 1; omega
        refine ⟨by simp; omega, ⟨?_, ?_, ?_⟩, ?_⟩
        · rw [ih2, hwr, hmod]; simp
        · intro k hk
          cases k with
          | zero =>
            have hz := ih4 s.txWr (fun k hk => by
              rw [hwr, hmod]
              intro hc
              have h0 : (s.txWr + 0) ≡ s.txWr + (k + 1) [MOD s.cfg.txCap] := by simpa [Nat.ModEq] using hc
              have h1 := Nat.ModEq.add_left_cancel' s.txWr h0
              rw [Nat.ModEq, Nat.zero_mod, Nat.mod_eq_of_lt (by omega)] at h1
              omega)
            simp only [Nat.add_zero, List.getElem_cons_zero]
            rw [hz, ringRead_pushed]; simp
          | succ k =>
            have hk' : k < bs.length := by simpa using hk
            have := ih3 k hk'
            simp only [List.getElem_cons_succ]
            rw [← this, ← ringRead_mod t (s.txWr + (k + 1)), ← ringRead_mod t ((pushed b s).txWr + k)]
            have htc : t.cfg = s.cfg := by rw [ih5]; rfl
            rw [htc, hwr, hmod]
        · intro a ha
          rw [ih4 a (fun k hk => by
            rw [hwr, hmod]; exact ha (k + 1) (by simpa using hk)), ringRead_pushed, if_neg]
          have := ha 0 (by simp)
          simpa using this
        · rw [ih5]; rfl

/-- A sequence of pushes that fits is performed (R131). -/
theorem pushAll_ok_of_room {bs : List Byte} {s : State} (h : occ s + bs.length < s.cfg.txCap) :
    ∃ t, pushAll bs s = .ok t := by
  induction bs generalizing s with
  | nil => exact ⟨s, rfl⟩
  | cons b bs ih =>
    rcases pushByte_cases b s with ⟨h1, -⟩ | ⟨h1, he⟩
    · simp at h; omega
    · simp only [pushAll, he]
      exact ih (by rw [occ_pushed h1]; simp at h; simp [pushed, ringWrite]; omega)

/-- A sequence of pushes that does not fit ends in `F_TXOVF` at the first byte without room (R131). -/
theorem pushAll_overflow {bs : List Byte} {s : State} (h : s.cfg.txCap ≤ occ s + bs.length) (hw : s.txWr < s.cfg.txCap) :
    ∃ hk : s.cfg.txCap - 1 - occ s < bs.length, pushAll bs s =
      .error (.txOvf (bs[s.cfg.txCap - 1 - occ s]'hk) ((s.txWr + (s.cfg.txCap - 1 - occ s)) % s.cfg.txCap) s.txRd) := by
  have hlt := occ_lt s
  induction bs generalizing s with
  | nil => simp at h; omega
  | cons b bs ih =>
    rcases pushByte_cases b s with ⟨h1, he⟩ | ⟨h1, he⟩
    · have hz : s.cfg.txCap - 1 - occ s = 0 := by omega
      refine ⟨by simp [hz], ?_⟩
      simp [pushAll, he, hz, Nat.mod_eq_of_lt hw]
    · have hcap : (pushed b s).cfg = s.cfg := rfl
      have hwr : (pushed b s).txWr = (s.txWr + 1) % s.cfg.txCap := rfl
      have hrd : (pushed b s).txRd = s.txRd := rfl
      have ho := occ_pushed (b := b) h1
      obtain ⟨hk, hp⟩ := ih (s := pushed b s) (by rw [ho, hcap]; simp at h; omega)
        (by rw [hcap, hwr]; exact Nat.mod_lt _ (txCap_pos _)) (by rw [ho, hcap]; omega)
      have hidx : s.cfg.txCap - 1 - occ s = (s.cfg.txCap - 1 - occ (pushed b s)) + 1 := by omega
      rw [hcap] at hk
      refine ⟨by simp; omega, ?_⟩
      simp only [pushAll, he, hp, hcap, hwr, hrd, hidx, List.getElem_cons_succ, Nat.mod_add_mod]
      congr 3
      omega

/-- The queue after bytes were appended with room for them (R135). -/
theorem ringQueue_of_appended {s t : State} {bs : List Byte} (h : RingAppended s t bs) (hc : t.cfg = s.cfg)
    (hr : t.txRd = s.txRd) (hroom : occ s + bs.length < s.cfg.txCap) : ringQueue t = ringQueue s ++ bs := by
  obtain ⟨h1, h2, h3⟩ := h
  have ho : occ t = occ s + bs.length := occ_advance_wr hc hr (by rw [h1, Nat.mod_mod]) hroom
  unfold ringQueue
  rw [ho, hc, hr]
  apply List.ext_getElem
  · simp
  · intro k hk1 hk2
    simp only [List.length_map, List.length_range] at hk1
    simp only [List.getElem_map, List.getElem_range]
    by_cases hk : k < occ s
    · rw [List.getElem_append_left (by simpa using hk)]
      simp only [List.getElem_map, List.getElem_range]
      rw [← hc, ringRead_mod, h3, hc, ringRead_mod]
      intro j hj hcon
      have h4 : (s.txRd + (occ s + j)) % s.cfg.txCap = (s.txWr + j) % s.cfg.txCap := by
        rw [← Nat.add_assoc, Nat.add_mod, rd_add_occ, ← Nat.add_mod]
      rw [← h4] at hcon
      have h5 := Nat.ModEq.add_left_cancel' s.txRd (show s.txRd + k ≡ s.txRd + (occ s + j) [MOD s.cfg.txCap] from hcon)
      rw [Nat.ModEq, Nat.mod_eq_of_lt (by omega), Nat.mod_eq_of_lt (by omega)] at h5
      omega
    · rw [List.getElem_append_right (by simpa using hk)]
      simp only [List.length_map, List.length_range]
      rw [← h2 (k - occ s) (by omega), ← ringRead_mod t (s.txWr + (k - occ s)), hc, ← Nat.add_mod_mod]
      have : (s.txRd + k) % s.cfg.txCap = (s.txWr + (k - occ s)) % s.cfg.txCap := by
        rw [← Nat.mod_add_mod s.txWr, ← rd_add_occ, Nat.mod_add_mod]
        congr 1
        omega
      rw [Nat.add_mod_mod, this]

/-- `drainCount` is at most 8 and at most the occupancy (R132). -/
theorem drainCount_le (s : State) : drainCount s ≤ 8 ∧ drainCount s ≤ occ s := by
  simp [drainCount, txChunkMax]

/-- The occupancy after a DRAIN (R132). -/
theorem occ_drainBody (s : State) : occ (drainBody s) = occ s - drainCount s :=
  occ_advance_rd rfl rfl (by simp) (drainCount_le s).2

/-- The queue after a DRAIN is the rest of the queue (R135). -/
theorem ringQueue_drainBody (s : State) : ringQueue (drainBody s) = (ringQueue s).drop (drainCount s) := by
  unfold ringQueue
  rw [occ_drainBody]
  apply List.ext_getElem
  · simp
  · intro k hk1 hk2
    simp only [List.getElem_map, List.getElem_range, List.getElem_drop, drainBody_cfg, drainBody_txRd]
    rw [ringRead_congr (s := s) (by simp) (by simp) (by simp), Nat.mod_add_mod, Nat.add_assoc]

/-- The chunk of a DRAIN is the front of the queue (R135). -/
theorem txChunk_drainBody (s : State) : (drainBody s).out.txChunk = some ((ringQueue s).take (drainCount s)) := by
  have h := (drainCount_le s).2
  simp only [drainBody, ringQueue]
  congr 1
  apply List.ext_getElem
  · simp; omega
  · intro k hk1 hk2
    have hk : k < drainCount s := by simpa using hk1
    simp [drainByte, hk]

end Sys2Proof.Machine
end

