-- ==== Sys2Proof/Laws/Ops.lean ====
section
/-!
SUPPORT. For each shared operation, all that it can do.
-/

namespace Sys2Proof.Machine

@[simp] theorem guarded_true (w : OpWord) (s : State) (k : Host.Outcome State Fault Refusal) :
    guarded true w s k = k := rfl

@[simp] theorem guarded_false (w : OpWord) (s : State) (k : Host.Outcome State Fault Refusal) :
    guarded false w s k = .refused (.profile w s.slot) := rfl

/-- A guarded operation that answers a next state passed its guard. -/
theorem guarded_next {ok : Bool} {w : OpWord} {s t : State} {k : Host.Outcome State Fault Refusal}
    (h : guarded ok w s k = .next t) : ok = true ∧ k = .next t := by
  cases ok
  · simp at h
  · exact ⟨rfl, by simpa using h⟩

@[simp] theorem outcomeOf_ok (s : State) : outcomeOf (.ok s) = .next s := rfl

@[simp] theorem outcomeOf_error (f : Fault) : outcomeOf (.error f) = .fault f := rfl

/-- An outcome that is a next state comes from an operation that completed. -/
theorem outcomeOf_next {r : Except Fault State} {t : State} (h : outcomeOf r = .next t) : r = .ok t := by
  cases r with
  | error f => simp at h
  | ok u => simp only [outcomeOf_ok, Host.Outcome.next.injEq] at h; rw [h]

/-- `Except.map` that answers a value was applied to a value. -/
theorem except_map_ok {α β : Type} {f : α → β} {r : Except Fault α} {b : β} (h : r.map f = .ok b) :
    ∃ a, r = .ok a ∧ b = f a := by
  cases r with
  | error e => simp [Except.map] at h
  | ok a => exact ⟨a, rfl, by simpa [Except.map, eq_comm] using h⟩

@[simp] theorem except_map_of_ok {α β : Type} (f : α → β) (a : α) :
    (Except.ok a : Except Fault α).map f = .ok (f a) := rfl

@[simp] theorem except_map_of_error {α β : Type} (f : α → β) (e : Fault) :
    (Except.error e : Except Fault α).map f = .error e := rfl

/-- All that a free value changes: the counter. -/
theorem takeFree_state (s : State) : (takeFree s).2 = { s with fresh := s.fresh + 1 } := rfl

/-- The table read: the entry, and nothing changed, for an index in the table (R76); else a free value. -/
theorem readThreshold_cases (s : State) :
    (∃ t, s.cfg.pwrSteps[s.pwrIdx.toNat]? = some t ∧ readThreshold s = (t, s)) ∨
      (s.cfg.pwrSteps.length ≤ s.pwrIdx.toNat ∧ readThreshold s = takeFree s) := by
  unfold readThreshold
  split
  · rename_i t h; exact .inl ⟨t, h, rfl⟩
  · rename_i h; exact .inr ⟨by simpa using h, rfl⟩

/-- All that a device register load can do (R238). -/
theorem devRead_cases (a : Byte) (s : State) :
    ∃ v, (devRead a s).1 = v ∧
      ((isStorage s.cfg a = true ∧ v = devContents s a ∧
          (devRead a s).2 = { s with out := { s.out with regBus := s.out.regBus ++ [.read a v] } }) ∨
        (isStorage s.cfg a = false ∧
          (devRead a s).2 =
            { s with fresh := s.fresh + 1, out := { s.out with regBus := s.out.regBus ++ [.read a v] } })) := by
  refine ⟨_, rfl, ?_⟩
  by_cases h : isStorage s.cfg a = true
  · exact .inl ⟨h, by simp [devRead, h], by simp [devRead, h]⟩
  · exact .inr ⟨by simpa using h, by simp [devRead, h, takeFree]⟩

/-- A load after a store to a plain storage register (R238). -/
theorem devContents_devWrite (a b v : Byte) (s : State) :
    devContents (devWrite a v s) b = if b = a ∧ isStorage s.cfg a = true then v else devContents s b := by
  unfold devContents
  by_cases h : isStorage s.cfg a = true
  · by_cases hb : b = a
    · simp [h, hb]
    · have : b.toNat ≠ a.toNat := fun hc => hb (BitVec.eq_of_toNat_eq hc)
      simp [h, hb, Memory.read?_write_of_ne _ v this]
  · simp [h]

/-- All that a reply can do when it answers a next state: the profile let it pass, its bytes were appended, the token buffer
was reset, and of the rest only the result record changed (R231, R244). -/
theorem reply_next {bs : List Byte} {s t : State} (hne : bs ≠ []) (h : reply bs s = .next t) :
    pushOk s = true ∧ occ s + bs.length < s.cfg.txCap ∧ RingAppended s t bs ∧
      t = { s with txBuf := t.txBuf, txWr := t.txWr, tok := [], out := { s.out with rsp := {} } } := by
  obtain ⟨hok, h2⟩ := guarded_next h
  obtain ⟨u, hu, rfl⟩ := except_map_ok (outcomeOf_next h2)
  obtain ⟨h3, h4, h5⟩ := pushAll_ok_spec hu hne
  have hcfg : u.cfg = s.cfg := by rw [h5]
  have hep : u.epoch = s.epoch := by rw [h5]
  refine ⟨hok, h3, ⟨h4.1, fun k hk => ?_, fun a ha => ?_⟩, by rw [h5]⟩
  · rw [← h4.2.1 k hk]; exact ringRead_congr rfl rfl rfl _
  · rw [← h4.2.2 a ha]; exact ringRead_congr rfl rfl rfl _

/-- A reply that keeps the profile and fits is performed. -/
theorem reply_completes {bs : List Byte} {s : State} (hok : pushOk s = true)
    (hroom : occ s + bs.length < s.cfg.txCap) : ∃ t, reply bs s = .next t := by
  obtain ⟨u, hu⟩ := pushAll_ok_of_room hroom
  exact ⟨{ u with tok := [], out := { u.out with rsp := {} } }, by simp [reply, hok, hu]⟩

/-- All that the body of EVDRAIN can do when it answers a state (R151). -/
theorem evdrainBody_ok {s t : State} (h : evdrainBody s = .ok t) :
    (lowestPending? s = none ∧ t = respond {} s) ∨
      ∃ j, lowestPending? s = some j ∧ occ s + 5 < s.cfg.txCap ∧ RingAppended s t (eventReport (BitVec.ofNat 8 j)) ∧
        t = { s with
          txBuf := t.txBuf, txWr := t.txWr, evPending := s.evPending &&& ~~~(eventBit (BitVec.ofNat 8 j)),
          out := { rsp := { valid := true, id := BitVec.ofNat 8 j } } } := by
  unfold evdrainBody at h
  split at h
  · rename_i hn
    exact .inl ⟨hn, by simpa [eq_comm] using h⟩
  · rename_i j hj
    obtain ⟨u, hu, rfl⟩ := except_map_ok h
    obtain ⟨h3, h4, h5⟩ := pushAll_ok_spec hu (by simp [eventReport])
    refine .inr ⟨j, hj, by simpa [eventReport, hexByte, crlf, occ] using h3, ⟨h4.1, fun k hk => ?_, fun a ha => ?_⟩,
      by rw [h5]; rfl⟩
    · rw [← h4.2.1 k hk]; exact ringRead_congr rfl rfl rfl _
    · exact (ringRead_congr (s := u) rfl rfl rfl a).trans ((h4.2.2 a ha).trans (ringRead_congr rfl rfl rfl a))

/-- What the scan of EVDRAIN finds: a pending ID in range, and none lower in range (R151, R152). -/
theorem lowestPending?_some {s : State} {j : Nat} :
    lowestPending? s = some j ↔ s.evPending.getLsbD j = true ∧ s.cfg.evMin ≤ j ∧ j ≤ s.cfg.evMax ∧
      ∀ k, s.cfg.evMin ≤ k → k < j → s.evPending.getLsbD k = false := by
  have hs : ∀ k, k ∈ List.range' s.cfg.evMin (s.cfg.evMax + 1 - s.cfg.evMin) ↔ s.cfg.evMin ≤ k ∧ k ≤ s.cfg.evMax := by
    intro k; rw [List.mem_range'_1]; omega
  unfold lowestPending?
  rw [List.find?_eq_some_iff_getElem]
  constructor
  · rintro ⟨h1, i, hi, h2, h3⟩
    simp only [List.length_range', List.getElem_range', Nat.one_mul] at hi h2 h3
    refine ⟨h1, by omega, by omega, fun k hk1 hk2 => ?_⟩
    have := h3 (k - s.cfg.evMin) (by omega)
    rw [show s.cfg.evMin + (k - s.cfg.evMin) = k by omega] at this
    simpa using this
  · rintro ⟨h1, h2, h3, h4⟩
    refine ⟨h1, j - s.cfg.evMin, by simp; omega, by simp; omega, fun k hk => ?_⟩
    simp only [List.getElem_range', Nat.one_mul]
    simpa using h4 (s.cfg.evMin + k) (by omega) (by omega)

/-- The scan of EVDRAIN finds nothing exactly when no ID in range is pending (R151). -/
theorem lowestPending?_none {s : State} :
    lowestPending? s = none ↔ ∀ j, s.cfg.evMin ≤ j → j ≤ s.cfg.evMax → s.evPending.getLsbD j = false := by
  unfold lowestPending?
  rw [List.find?_eq_none]
  constructor
  · intro h j h1 h2
    simpa using h j (by rw [List.mem_range'_1]; omega)
  · intro h j hj
    rw [List.mem_range'_1] at hj
    simp [h j (by omega) (by omega)]

/-- The bits of a one-event set (R26). -/
theorem getLsbD_eventBit (id : Byte) (j : Nat) : (eventBit id).getLsbD j = decide (j = id.toNat) := by
  have := id.isLt
  simp only [eventBit, BitVec.getLsbD_twoPow, eq_comm (a := id.toNat)]
  by_cases h : j = id.toNat
  · simp [h]; omega
  · simp [h]

end Sys2Proof.Machine
end

