-- ==== Sys2Proof/Certificates/Slice0/Obligations.lean ====
section
/-!
DEFINITION. The statements for the provers. They range over every state, so over every configuration and every port
contents; docstrings cite the rules of spec/ each formalises. That an operation is issued from its context and within its profile
is a hypothesis, on `issuer`, `mainDirectOk` or `pushOk`; how the model holds contexts and claims is its own choice (logs 7
and 8), stated in `RefusalsRecordTheWordAndTheSlot`.
-/

open Sys2Proof Sys2Proof.Machine

-- Reset and the reset input.

/-- The values of R41 for every item after reset, for every configuration. Two clauses are the model's choice: `tx_buf` is
unspecified, and each of its bytes is a free value (log 9); `State.reset` is that state under CFG-T (log 2). -/
def Obligations.ResetLeavesTheValuesOfR41 : Prop :=
  (∀ cfg : Params,
    let s := State.resetWith cfg
    (∀ a, ringRead s a = Config.unwrittenByte 0 (a % cfg.txCap)) ∧ s.txWr = 0 ∧ s.txRd = 0 ∧ s.txZlp = false ∧
      (∀ j, s.evPending.getLsbD j = false) ∧ s.stable = 0x00 ∧ s.ct0 = 0xFF ∧ s.ct1 = 0xFF ∧ s.press = 0x00 ∧
      s.pwrIdx = 0 ∧ s.pwmCnt = 0x00 ∧ s.heaterOn = false ∧ s.ledOn = false ∧ s.slot = 0 ∧ s.cfg = cfg) ∧
    State.reset = State.resetWith cfgT

/-- R43: the reset state meets the invariant under every configuration that meets the constraints of R6. -/
def Obligations.ResetMeetsTheInvariant : Prop :=
  (∀ cfg : Params, cfg.wf = true → StateInv (State.resetWith cfg)) ∧ StateInv State.reset

/-- R330 as the model reads it: asserting `rst` is taken; while it is asserted no operation is accepted; when it is released every
item has its value of R41, whatever it was before, and the outputs are inactive. The model's choice: an operation or a host byte
presented meanwhile is dropped and changes nothing, and a release with no assertion before it changes nothing (log 12); what
of the run is kept over a reset (log 13); the free-value form of `tx_buf` (log 9). -/
def Obligations.RstHoldsAndReleasesTheBlock : Prop :=
  (∀ (s : State) (q : List Event), s.pending = .rst true :: q →
    ∃ t, step s = .next t ∧ t.rst = true ∧ t.pending = q) ∧
  (∀ (s : State) (c : Option Context) (w : OpWord) (q : List Event), s.rst = true → s.pending = .op c w :: q →
    step s = .next { s with pending := q }) ∧
  (∀ (s : State) (b : Byte) (q : List Event), s.rst = true → s.pending = .host b :: q →
    step s = .next { s with pending := q }) ∧
  (∀ (s : State) (q : List Event), s.rst = false → s.pending = .rst false :: q →
    step s = .next { s with pending := q }) ∧
  (∀ (s : State) (q : List Event), s.rst = true → s.pending = .rst false :: q →
    ∃ t, step s = .next t ∧ t.rst = false ∧ t.pending = q ∧ t.cfg = s.cfg ∧
      (∀ a, ringRead t a = Config.unwrittenByte t.epoch (a % s.cfg.txCap)) ∧ t.txWr = 0 ∧ t.txRd = 0 ∧
      t.txZlp = false ∧ (∀ j, t.evPending.getLsbD j = false) ∧ t.stable = 0x00 ∧ t.ct0 = 0xFF ∧ t.ct1 = 0xFF ∧
      t.press = 0x00 ∧ t.pwrIdx = 0 ∧ t.pwmCnt = 0x00 ∧ t.heaterPort = false ∧ t.ledPort = false ∧ t.slot = 0)

-- Steps and decoding.

/-- R90, R97, R224: a step performs the instruction that the next presented event spells, in the state with that event taken
off the queue; with nothing presented nothing happens; a word placed by `withFetchWord` is the next one. -/
def Obligations.StepRunsTheDecodedInstruction : Prop :=
  (∀ (s : State) (c : Option Context) (w : OpWord) (q : List Event) (i : Instr),
    s.rst = false → s.pending = .op c w :: q → decode (.op16 w) = .ok i →
      step s = exec i { s with pending := q, issuer := c }) ∧
  (∀ (s : State) (b c : Byte) (q : List Event) (i : Instr),
    s.rst = false → s.pending = .host b :: q → b ≤ 0x20 → s.tok = [c] → decodeChar c = .ok i →
      step s = exec i { s with pending := q, issuer := some .main }) ∧
  (∀ s : State, s.pending = [] → step s = .next s) ∧
  (∀ (s : State) (w : Nat) (i : Instr), decodeTableWord 16 w = some i →
    step (s.withFetchWord 16 w) = exec i { s with rst := false, issuer := none }) ∧
  (∀ (s : State) (w : Nat) (i : Instr), decodeTableWord 8 w = some i →
    step (s.withFetchWord 8 w) =
      exec i { s with rst := false, issuer := some .main, tok := [upcase (BitVec.ofNat 8 w)] })

/-- R92, R95, R224: words of each family written out from the encoding decode to what they stand for, and reserved words are
rejected. -/
def Obligations.SampleWordsDecode : Prop :=
  decode (.op16 0x0000) = .ok .nop ∧ decode (.op16 0x10FE) = .ok (.tick 0xFE) ∧ decode (.op16 0x2000) = .ok .pwmovf ∧
  decode (.op16 0x3005) = .ok (.raise 0x05) ∧ decode (.op16 0x4041) = .ok (.push 0x41) ∧
  decode (.op16 0x5000) = .ok .drain ∧ decode (.op16 0x6000) = .ok .evdrain ∧
  decode (.op16 0x7001) = .ok (.press 0x01) ∧ decode (.op16 0x8000) = .ok .pwrstep ∧
  decode (.op16 0x9001) = .ok (.loopstep true) ∧ decode (.op16 0x9000) = .ok (.loopstep false) ∧
  decode (.cmdChar 0x40) = .ok .who ∧ decode (.cmdChar 0x5E) = .ok .xorSet ∧
  decode (.op16 0x0001) = .error (.reservedOperand 0x0001) ∧ decode (.op16 0x11FE) = .error (.reservedZeroField 0x11FE) ∧
  decode (.op16 0x9002) = .error (.reservedOperand 0x9002) ∧ decode (.op16 0xA000) = .error (.reservedOpcode 0xA000)

/-- R95, R293: a reserved word changes no state and returns `err = 1`; the model's sticky mark records it (log 5). -/
def Obligations.ReservedWordChangesNoState : Prop :=
  ∀ (s : State) (c : Option Context) (w : OpWord) (q : List Event) (e : DecodeError),
    s.rst = false → s.pending = .op c w :: q → decodeOp16 w = .error e →
      step s = .next
        { s with
          pending := q
          out := { rsp := { err := true } }
          rsvdMark := if s.rsvdMark = none then some w else s.rsvdMark }

/-- R92, R93, R224: decoding an encoded instruction gives it back, for every instruction and every operand the encoding
admits: every RAISE operand, in range or not, and every ERROR byte that is a normalised token byte and no other command. -/
def Obligations.DecodeOfEncodeIsTheInstruction : Prop :=
  ∀ (p : Params) (i : Instr), (i.wf p = true ∨ ∃ id, i = .raise id) → decode (encode i) = .ok i

/-- R92, R97, R224, R222: an operation word that decodes is the encoding of what it decodes to, so no two operation words spell
one instruction; a command byte that decodes is, once normalised, the encoding of what it decodes to, so command bytes that
spell one instruction differ at most in the case of a letter (`0x61` and `0x41` both spell ERROR `0x41`). -/
def Obligations.DecodedWordsEncodeBack : Prop :=
  (∀ (w : OpWord) (i : Instr), decode (.op16 w) = .ok i → encode i = .op16 w) ∧
  (∀ (w v : OpWord) (i : Instr), decode (.op16 w) = .ok i → decode (.op16 v) = .ok i → w = v) ∧
  (∀ (c : Byte) (i : Instr), decode (.cmdChar c) = .ok i → encode i = .cmdChar (upcase c)) ∧
  (∀ (c d : Byte) (i : Instr), decode (.cmdChar c) = .ok i → decode (.cmdChar d) = .ok i → upcase c = upcase d)

/-- R95: which words are reserved. -/
def Obligations.ReservedWordsAreExactlyThoseOfR95 : Prop :=
  ∀ w : OpWord,
    (∃ e, decodeOp16 w = .error e) ↔
      (10 ≤ (w.extractLsb' 12 4).toNat ∨ w.extractLsb' 8 4 ≠ 0 ∨
        ((w.extractLsb' 12 4).toNat ∈ [0, 2, 5, 6, 8] ∧ w.extractLsb' 0 8 ≠ 0) ∨
        ((w.extractLsb' 12 4).toNat = 9 ∧ w.extractLsb' 1 7 ≠ 0))

/-- R221, R224: the command each token byte selects; any other byte above `0x20` is ERROR; a byte up to `0x20` is none. -/
def Obligations.TokenByteSelectsItsCommand : Prop :=
  decodeChar 0x40 = .ok .who ∧ decodeChar 0x3F = .ok .get ∧ decodeChar 0x3D = .ok .set ∧
  decodeChar 0x24 = .ok .setTwice ∧ decodeChar 0x26 = .ok .andSet ∧ decodeChar 0x7C = .ok .orSet ∧
  decodeChar 0x5E = .ok .xorSet ∧
  (∀ c : Byte, 0x20 < c → c ∉ [0x40, 0x3F, 0x3D, 0x24, 0x26, 0x7C, 0x5E] → decodeChar c = .ok (.error c)) ∧
  (∀ c : Byte, c ≤ 0x20 → decodeChar c = .error (.delimiterByte c))

-- NOP, TICK, PWMOVF.

/-- R266: NOP writes no state, `slot` included; its word is `0x0000`; any context may issue it; its result has `err = 0`. -/
def Obligations.NopChangesNoState : Prop :=
  encode .nop = .op16 0x0000 ∧ ∀ s : State, exec .nop s = .next { s with out := {} }

/-- R170: the equations of TICK, issued from its context, its word, and that nothing else changes. -/
def Obligations.TickComputesTheDebounceEquations : Prop :=
  ∀ (raw : Byte) (s : State),
    encode (.tick raw) = .op16 (0x1000 + raw.setWidth 16) ∧
    (s.issuer ≠ some .main →
      let changed := s.stable ^^^ ~~~raw
      let ct0 := ~~~(s.ct0 &&& changed)
      let ct1 := ct0 ^^^ (s.ct1 &&& changed)
      let settled := changed &&& ct0 &&& ct1
      let stable := s.stable ^^^ settled
      exec (.tick raw) s = .next
        { s with ct0 := ct0, ct1 := ct1, stable := stable, press := s.press ||| (stable &&& settled), out := {} })

/-- R171, the lane table: per lane, the counter re-arms to 3 when the input agrees with the accepted state, else counts down
and at 0 rolls over to 3, flips the lane of `stable` and, when it flips to 1, sets the lane of `press`. -/
def Obligations.TickLanesFollowTheTable : Prop :=
  ∀ (raw : Byte) (s t : State) (i : Nat), i < 8 → exec (.tick raw) s = .next t →
    (laneChanged s raw i = false →
      laneCount t i = 3 ∧ t.stable.getLsbD i = s.stable.getLsbD i ∧ t.press.getLsbD i = s.press.getLsbD i) ∧
    (laneChanged s raw i = true → 0 < laneCount s i →
      laneCount t i = laneCount s i - 1 ∧ t.stable.getLsbD i = s.stable.getLsbD i ∧
        t.press.getLsbD i = s.press.getLsbD i) ∧
    (laneChanged s raw i = true → laneCount s i = 0 →
      laneCount t i = 3 ∧ t.stable.getLsbD i = !s.stable.getLsbD i ∧
        t.press.getLsbD i = (s.press.getLsbD i || !s.stable.getLsbD i))

/-- R173: a lane with counter 3 whose input disagrees with its accepted level on four consecutive ticks keeps `stable` and
`press` through the third and flips on the fourth; a flip to 1 latches the press. -/
def Obligations.FourDisagreeingTicksSettleALane : Prop :=
  ∀ (s : State) (r1 r2 r3 r4 : Byte) (i : Nat), i < 8 → s.issuer ≠ some .main → laneCount s i = 3 →
    r1.getLsbD i = s.stable.getLsbD i → r2.getLsbD i = s.stable.getLsbD i → r3.getLsbD i = s.stable.getLsbD i →
    r4.getLsbD i = s.stable.getLsbD i →
    (∃ t, performAll [.tick r1, .tick r2, .tick r3] s = .next t ∧ laneCount t i = 0 ∧
      t.stable.getLsbD i = s.stable.getLsbD i ∧ t.press.getLsbD i = s.press.getLsbD i) ∧
    (∃ t, performAll [.tick r1, .tick r2, .tick r3, .tick r4] s = .next t ∧ laneCount t i = 3 ∧
      t.stable.getLsbD i = !s.stable.getLsbD i ∧
      t.press.getLsbD i = (s.press.getLsbD i || !s.stable.getLsbD i))

/-- R174: from counter 3, at most three ticks of any input followed by one that agrees leave `stable` and `press` of the
lane as they were and the counter at 3. -/
def Obligations.GlitchesShorterThanFourTicksAreRejected : Prop :=
  ∀ (s : State) (raws : List Byte) (r : Byte) (i : Nat), i < 8 → s.issuer ≠ some .main → laneCount s i = 3 →
    raws.length ≤ 3 → r.getLsbD i = !s.stable.getLsbD i →
    ∃ t, performAll ((raws ++ [r]).map .tick) s = .next t ∧ laneCount t i = 3 ∧
      t.stable.getLsbD i = s.stable.getLsbD i ∧ t.press.getLsbD i = s.press.getLsbD i

/-- R200: PWMOVF issued from its context, with the index in the table: increment, then the test with 0 and the test with the
threshold, the later winning; its word, and that nothing else changes. -/
def Obligations.PwmovfIncrementsAndCompares : Prop :=
  encode .pwmovf = .op16 0x2000 ∧
  ∀ (s : State) (T : Byte), s.issuer ≠ some .main → s.cfg.pwrSteps[s.pwrIdx.toNat]? = some T →
    exec .pwmovf s = .next
      { s with
        pwmCnt := s.pwmCnt + 1
        heaterOn := if s.pwmCnt + 1 = T then false else if s.pwmCnt + 1 = 0 then true else s.heaterOn
        ledOn := if s.pwmCnt + 1 = T then false else if s.pwmCnt + 1 = 0 then true else s.ledOn
        out := {} }

/-- The model's choice (log 11): with an index past the table, which no reachable state has, PWMOVF still runs, against a
free threshold. -/
def Obligations.PwmovfPastTheTableUsesAFreeThreshold : Prop :=
  ∀ s : State, s.issuer ≠ some .main → s.cfg.pwrStepsLen ≤ s.pwrIdx.toNat →
    ∃ T : Byte, T = Config.freeByte s.fresh ∧
      exec .pwmovf s = .next
        { s with
          pwmCnt := s.pwmCnt + 1
          heaterOn := if s.pwmCnt + 1 = T then false else if s.pwmCnt + 1 = 0 then true else s.heaterOn
          ledOn := if s.pwmCnt + 1 = T then false else if s.pwmCnt + 1 = 0 then true else s.ledOn
          fresh := s.fresh + 1
          out := {} }

/-- R202: with the threshold constant at `T`, from the overflow that wraps the counter on, the outputs are active exactly
while the count is below `T`: `T` of every 256 overflows. -/
def Obligations.PwmDutyIsThresholdOver256 : Prop :=
  ∀ (s : State) (T : Byte) (n : Nat), s.issuer ≠ some .main → s.cfg.pwrSteps[s.pwrIdx.toNat]? = some T →
    s.pwmCnt = 0xFF →
    ∃ t, performAll (pseudoPwmovfs (n + 1)) s = .next t ∧ t.pwmCnt = BitVec.ofNat 8 n ∧
      t.heaterPort = decide (n % 256 < T.toNat) ∧ t.ledPort = decide (n % 256 < T.toNat)

/-- R201, R203 (b), R341: with threshold 0 the outputs stay as they are until the counter wraps, `256 - pwm_cnt` overflows
later, and are inactive from then on. -/
def Obligations.ThresholdZeroTurnsOffAtTheWrap : Prop :=
  ∀ (s : State) (n : Nat), s.issuer ≠ some .main → s.cfg.pwrSteps[s.pwrIdx.toNat]? = some 0 →
    ∃ t, performAll (pseudoPwmovfs n) s = .next t ∧
      (n < 256 - s.pwmCnt.toNat → t.heaterPort = s.heaterPort ∧ t.ledPort = s.ledPort) ∧
      (256 - s.pwmCnt.toNat ≤ n → t.heaterPort = false ∧ t.ledPort = false)

-- The event latch.

/-- R150: RAISE, issued from its context, sets the flag of its ID and nothing else; its word. -/
def Obligations.RaiseSetsOneFlag : Prop :=
  ∀ (id : Byte) (s : State),
    encode (.raise id) = .op16 (0x3000 + id.setWidth 16) ∧
    (s.cfg.evMin ≤ id.toNat → id.toNat ≤ s.cfg.evMax → s.issuer ≠ some .main →
      ∃ ev : EventBits, (∀ j : Nat, ev.getLsbD j = (decide (j = id.toNat) || s.evPending.getLsbD j)) ∧
        exec (.raise id) s = .next { s with evPending := ev, out := {} })

/-- R96: RAISE with an ID out of range changes no state and returns `err = 1`; the model's sticky mark records the word
(log 5). -/
def Obligations.RaiseOutOfRangeChangesNoState : Prop :=
  ∀ (id : Byte) (s : State), (id.toNat < s.cfg.evMin ∨ s.cfg.evMax < id.toNat) →
    exec (.raise id) s = .next
      { s with
        out := { rsp := { err := true } }
        rsvdMark := if s.rsvdMark = none then some (0x3000 + id.setWidth 16) else s.rsvdMark }

/-- R100, R101: the five bytes of a report, the hex digits upper case and the high nibble first. -/
def Obligations.EventReportIsFiveBytes : Prop :=
  (∀ v : BitVec 4,
    hexDigit v = if v.toNat ≤ 9 then BitVec.ofNat 8 (0x30 + v.toNat) else BitVec.ofNat 8 (0x41 + (v.toNat - 10))) ∧
  (∀ b : Byte, hexByte b = [hexDigit (b.extractLsb' 4 4), hexDigit (b.extractLsb' 0 4)]) ∧
  (∀ id : Byte,
    eventReport id = [0x5C, hexDigit (id.extractLsb' 4 4), hexDigit (id.extractLsb' 0 4), 0x0D, 0x0A])

/-- R151: EVDRAIN with nothing pending writes nothing; with `j` the least pending ID in range and room for the report, it
clears the flag of `j` alone, appends the report, and returns `j`; without room it is `F_TXOVF`; its word; nothing else
changes. -/
def Obligations.EvdrainReportsTheLowestPendingEvent : Prop :=
  encode .evdrain = .op16 0x6000 ∧
  (∀ s : State, mainDirectOk s = true → s.cfg.wf = true →
    ((∀ j : Nat, s.cfg.evMin ≤ j → j ≤ s.cfg.evMax → s.evPending.getLsbD j = false) →
      exec .evdrain s = .next { s with out := {} }) ∧
    (∀ j : Byte, s.cfg.evMin ≤ j.toNat → j.toNat ≤ s.cfg.evMax → s.evPending.getLsbD j.toNat = true →
      (∀ k : Nat, s.cfg.evMin ≤ k → k < j.toNat → s.evPending.getLsbD k = false) → occ s ≤ s.cfg.txCap - 6 →
      ∃ t, exec .evdrain s = .next t ∧
        RingAppended s t [0x5C, hexDigit (j.extractLsb' 4 4), hexDigit (j.extractLsb' 0 4), 0x0D, 0x0A] ∧
        (∀ k : Nat, t.evPending.getLsbD k = (s.evPending.getLsbD k && !decide (k = j.toNat))) ∧
        t = { s with
          txBuf := t.txBuf, txWr := t.txWr, evPending := t.evPending, out := { rsp := { valid := true, id := j } } }) ∧
    (∀ j : Nat, s.cfg.evMin ≤ j → j ≤ s.cfg.evMax → s.evPending.getLsbD j = true → s.cfg.txCap - 6 < occ s →
      ∃ b wr, exec .evdrain s = .fault (.txOvf b wr s.txRd)))

/-- R131, R151: EVDRAIN with an event pending and fewer than five places free ends in `F_TXOVF` at the first byte of the report
without room, with that byte and the cursors recorded. -/
def Obligations.EvdrainWithoutRoomFaults : Prop :=
  ∀ (s : State) (j : Byte), mainDirectOk s = true → s.cfg.wf = true → s.txWr < s.cfg.txCap →
    s.cfg.evMin ≤ j.toNat → j.toNat ≤ s.cfg.evMax → s.evPending.getLsbD j.toNat = true →
    (∀ k : Nat, s.cfg.evMin ≤ k → k < j.toNat → s.evPending.getLsbD k = false) → s.cfg.txCap - 6 < occ s →
    ∃ b, (eventReport j)[s.cfg.txCap - 1 - occ s]? = some b ∧
      exec .evdrain s = .fault (.txOvf b ((s.txWr + (s.cfg.txCap - 1 - occ s)) % s.cfg.txCap) s.txRd)

/-- R152, R153 and the source's property W10: two IDs raised in any order and number, each at least once, are reported once
each, the lower first, and then nothing is left to report. -/
def Obligations.RaisedEventsAreReportedOnceLowestFirst : Prop :=
  ∀ (s : State) (j k : Byte) (ids : List Byte), j ∈ ids → k ∈ ids → (∀ id ∈ ids, id = j ∨ id = k) → s.issuer = none → s.profile = .direct → s.cfg.wf = true → s.cfg.evMin ≤ j.toNat →
    j.toNat < k.toNat → k.toNat ≤ s.cfg.evMax →
    (∀ m : Nat, s.cfg.evMin ≤ m → m ≤ s.cfg.evMax → s.evPending.getLsbD m = false) → occ s + 10 < s.cfg.txCap →
    ∃ t u v, performAll (ids.map .raise ++ [.evdrain]) s = .next t ∧ t.out.rsp.valid = true ∧
      t.out.rsp.id = j ∧ exec .evdrain t = .next u ∧ u.out.rsp.valid = true ∧ u.out.rsp.id = k ∧
      ringQueue u = ringQueue s ++ eventReport j ++ eventReport k ∧ exec .evdrain u = .next v ∧
      v.out.rsp.valid = false

/-- R73 (a): the two orders of a RAISE and an EVDRAIN that reports the same ID: RAISE first leaves the flag 0, EVDRAIN first
leaves it 1, and both report the ID. -/
def Obligations.RaiseBesideEvdrainGivesOneOfTwoOrders : Prop :=
  ∀ (s : State) (j : Byte), s.issuer = none → s.profile = .direct → s.cfg.wf = true → s.cfg.evMin ≤ j.toNat →
    j.toNat ≤ s.cfg.evMax → s.evPending.getLsbD j.toNat = true →
    (∀ k : Nat, s.cfg.evMin ≤ k → k < j.toNat → s.evPending.getLsbD k = false) → occ s + 5 < s.cfg.txCap →
    ∃ t u w, performAll [.raise j, .evdrain] s = .next t ∧ t.evPending.getLsbD j.toNat = false ∧ t.out.rsp.id = j ∧
      exec .evdrain s = .next u ∧ u.out.rsp.id = j ∧ exec (.raise j) u = .next w ∧
      w.evPending.getLsbD j.toNat = true ∧ ringQueue w = ringQueue t

-- The ring.

/-- R25, R281: the occupancy is the difference of the cursors modulo the capacity, always below it; with cursors in range
the ring is empty exactly when they are equal. -/
def Obligations.OccupancyIsTheCursorDifference : Prop :=
  ∀ s : State,
    (occ s : Int) = ((s.txWr : Int) - (s.txRd : Int)) % (s.cfg.txCap : Int) ∧ occ s ≤ s.cfg.txCap - 1 ∧
    (s.txWr < s.cfg.txCap → s.txRd < s.cfg.txCap → (occ s = 0 ↔ s.txWr = s.txRd))

/-- R130: PUSH, where it is legal, stores its byte at the write cursor and advances it, every other byte and all other state
unchanged; a PUSH into a ring holding `TX_CAP - 1` bytes is `F_TXOVF`; its word. -/
def Obligations.PushAppendsOneByte : Prop :=
  ∀ (b : Byte) (s : State),
    encode (.push b) = .op16 (0x4000 + b.setWidth 16) ∧
    (pushOk s = true → occ s ≠ s.cfg.txCap - 1 →
      ∃ t, exec (.push b) s = .next t ∧ RingAppended s t [b] ∧
        t = { s with txBuf := t.txBuf, txWr := (s.txWr + 1) % s.cfg.txCap, out := {} }) ∧
    (pushOk s = true → occ s = s.cfg.txCap - 1 → exec (.push b) s = .fault (.txOvf b s.txWr s.txRd))

/-- R132: DRAIN pulls `n = min(8, occ)` bytes from the read cursor, hands them to the transport as one transaction, sets
`was8` and `tx_zlp`; its word; every byte of the ring and all other state unchanged. What `data[k]` holds for `k >= n` is free
(R99), so nothing is said of it. -/
def Obligations.DrainPullsUpToEightBytes : Prop :=
  encode .drain = .op16 0x5000 ∧
  ∀ s : State, mainDirectOk s = true →
    ∃ (t : State) (n : Nat), n = min 8 (occ s) ∧ exec .drain s = .next t ∧ t.txRd = (s.txRd + n) % s.cfg.txCap ∧
      t.txZlp = (decide (n = 8) && decide (t.txRd = s.txWr)) ∧ t.out.rsp.n.toNat = n ∧
      t.out.rsp.was8 = decide (n = 8) ∧
      (∀ (k : Nat) (h : k < 8), k < n → t.out.rsp.data[k] = ringRead s ((s.txRd + k) % s.cfg.txCap)) ∧
      t.out.txChunk = some ((List.range n).map fun k => ringRead s ((s.txRd + k) % s.cfg.txCap)) ∧
      t.out = { rsp := { n := t.out.rsp.n, was8 := t.out.rsp.was8, data := t.out.rsp.data }, txChunk := t.out.txChunk } ∧
      (∀ a, ringRead t a = ringRead s a) ∧
      t = { s with txRd := t.txRd, txZlp := t.txZlp, out := t.out, fresh := t.fresh }

/-- R133: a DRAIN leaves a terminator owed exactly when the queue it found held eight bytes. -/
def Obligations.TerminatorIsOwedAfterAFullEmptyingChunk : Prop :=
  ∀ s : State, mainDirectOk s = true → s.txWr < s.cfg.txCap →
    ∃ t, exec .drain s = .next t ∧ (t.txZlp = true ↔ (ringQueue s).length = 8) ∧
      (t.txZlp = true → ringQueue t = [] ∧ t.txRd = t.txWr)

/-- R135: the ring is a FIFO queue of at most `TX_CAP - 1` bytes. Whatever completes takes bytes only from the front, all of
them into the chunk handed to the transport, and adds only at the tail; PUSH adds its byte; DRAIN takes the first
`min(8, |Q|)` and adds none. -/
def Obligations.RingImplementsAFifoQueue : Prop :=
  (∀ (i : Instr) (s t : State), exec i s = .next t →
    (ringQueue t).length ≤ s.cfg.txCap - 1 ∧
    ∃ (n : Nat) (bs : List Byte), ringQueue t = (ringQueue s).drop n ++ bs ∧
      (t.out.txChunk = none → n = 0) ∧
      (∀ c, t.out.txChunk = some c → bs = [] ∧ n = min 8 (ringQueue s).length ∧ c = (ringQueue s).take n) ∧
      (¬ mayPush i s → bs = [])) ∧
  (∀ (b : Byte) (s t : State), exec (.push b) s = .next t → ringQueue t = ringQueue s ++ [b]) ∧
  (∀ s t : State, exec .drain s = .next t →
    ringQueue t = (ringQueue s).drop 8 ∧ t.out.txChunk = some ((ringQueue s).take 8))

-- Presses and the power level.

/-- R176: PRESS returns the pending lanes the mask selects and clears them; its word; nothing else changes. -/
def Obligations.PressFetchesAndClears : Prop :=
  ∀ (mask : Byte) (s : State),
    encode (.press mask) = .op16 (0x7000 + mask.setWidth 16) ∧
    (mainDirectOk s = true →
      exec (.press mask) s = .next
        { s with press := s.press &&& ~~~(s.press &&& mask), out := { rsp := { pressed := s.press &&& mask } } })

/-- R177: a press is returned once: a second PRESS with the same mask, with no TICK between, returns nothing and changes no
state. -/
def Obligations.PressIsConsumedOnce : Prop :=
  ∀ (mask : Byte) (s : State), mainDirectOk s = true →
    ∃ t u, exec (.press mask) s = .next t ∧ t.out.rsp.pressed = s.press &&& mask ∧
      exec (.press mask) t = .next u ∧ u.out.rsp.pressed = 0 ∧ sameButOut t u

/-- R73 (b): the two orders of a TICK that settles lane `i` to pressed and a PRESS that selects the lane: TICK first returns the
lane and leaves it 0; PRESS first returns it only if it was already set and leaves it 1. -/
def Obligations.TickBesidePressGivesOneOfTwoOrders : Prop :=
  ∀ (s : State) (raw mask : Byte) (i : Nat), i < 8 → s.issuer = none → s.profile = .direct →
    laneChanged s raw i = true → laneCount s i = 0 → s.stable.getLsbD i = false → mask.getLsbD i = true →
    ∃ t u w, performAll [.tick raw, .press mask] s = .next t ∧ t.out.rsp.pressed.getLsbD i = true ∧
      t.press.getLsbD i = false ∧ exec (.press mask) s = .next u ∧
      u.out.rsp.pressed.getLsbD i = s.press.getLsbD i ∧ exec (.tick raw) u = .next w ∧ w.press.getLsbD i = true

/-- R178: PWRSTEP advances the index by one modulo the table length; its word; nothing else changes. -/
def Obligations.PwrstepAdvancesTheIndex : Prop :=
  encode .pwrstep = .op16 0x8000 ∧
  ∀ s : State, mainDirectOk s = true →
    exec .pwrstep s = .next
      { s with pwrIdx := BitVec.ofNat 8 ((s.pwrIdx.toNat + 1) % s.cfg.pwrSteps.length), out := {} }

/-- R180: as many PWRSTEPs as the table has entries return the index to its start. -/
def Obligations.PwrstepsCycleThroughTheTable : Prop :=
  ∀ s : State, mainDirectOk s = true → s.cfg.wf = true → s.pwrIdx.toNat < s.cfg.pwrStepsLen →
    ∃ t, performAll (List.replicate s.cfg.pwrStepsLen .pwrstep) s = .next t ∧ t.pwrIdx = s.pwrIdx

-- The scheduler.

/-- R261, R262: LOOPSTEP's word; at slot 0 nothing in the block changes but `slot`, which advances to 1. -/
def Obligations.LoopstepAtPollOnlyAdvances : Prop :=
  ∀ (rdy : Bool) (s : State),
    encode (.loopstep rdy) = .op16 (0x9000 + (BitVec.ofBool rdy).setWidth 16) ∧
    (s.issuer ≠ some .interrupt → s.slot = 0 →
      exec (.loopstep rdy) s = .next { s with slot := 1, out := { rsp := { slot := 0, did := false } } })

/-- R263: at slot 1 a DRAIN is performed when the transport is ready and a byte or a terminator is there to send; otherwise
nothing changes but `slot`. -/
def Obligations.LoopstepAtTxdrainDrainsWhenDue : Prop :=
  ∀ (rdy : Bool) (s : State), s.issuer ≠ some .interrupt → s.slot = 1 →
    (rdy = true ∧ (0 < occ s ∨ s.txZlp = true) →
      ∃ d, exec .drain { s with profile := .direct } = .next d ∧
        exec (.loopstep rdy) s = .next
          { d with
            profile := s.profile
            slot := 2
            out := { d.out with rsp := { d.out.rsp with slot := 1, did := true } } }) ∧
    (¬ (rdy = true ∧ (0 < occ s ∨ s.txZlp = true)) →
      exec (.loopstep rdy) s = .next { s with slot := 2, out := { rsp := { slot := 1, did := false } } })

/-- R264: at slot 2 the effect is that of EVDRAIN, and `did` is its `valid`: it completes when nothing is pending or the report
fits, and otherwise faults as EVDRAIN does. -/
def Obligations.LoopstepAtEvdrainReportsOneEvent : Prop :=
  ∀ (rdy : Bool) (s : State), s.issuer ≠ some .interrupt → s.slot = 2 → s.cfg.wf = true →
    (((∀ j : Nat, s.cfg.evMin ≤ j → j ≤ s.cfg.evMax → s.evPending.getLsbD j = false) ∨ occ s + 5 < s.cfg.txCap) →
      ∃ e, exec .evdrain { s with profile := .direct } = .next e ∧
        exec (.loopstep rdy) s = .next
          { e with
            profile := s.profile
            slot := 3
            out := { e.out with rsp := { e.out.rsp with slot := 2, did := e.out.rsp.valid } } }) ∧
    (∀ f, exec .evdrain { s with profile := .direct } = .fault f → exec (.loopstep rdy) s = .fault f)

/-- R265: at slot 3 the pending presses of `PRESS_MASK` are consumed, the index advances by one if there was any, and `slot`
wraps to 0; nothing else changes. -/
def Obligations.LoopstepAtPressConsumesAndSteps : Prop :=
  ∀ (rdy : Bool) (s : State), s.issuer ≠ some .interrupt → s.slot = 3 →
    exec (.loopstep rdy) s = .next
      { s with
        press := s.press &&& ~~~(s.press &&& s.cfg.pressMask)
        pwrIdx :=
          if s.press &&& s.cfg.pressMask = 0 then s.pwrIdx
          else BitVec.ofNat 8 ((s.pwrIdx.toNat + 1) % s.cfg.pwrSteps.length)
        slot := 0
        out :=
          { rsp :=
              { pressed := s.press &&& s.cfg.pressMask
                slot := 3
                did := !decide (s.press &&& s.cfg.pressMask = 0) } } }

/-- R271: what one LOOPSTEP does to the occupancy: at slot 1 it can only fall, by at most 8, and falls by `min(8, occ)` when
the transport is ready; at slot 2 it stays or grows by exactly 5; at slots 0 and 3 it stays. -/
def Obligations.LoopstepBoundsRingGrowth : Prop :=
  ∀ (rdy : Bool) (s t : State), exec (.loopstep rdy) s = .next t →
    ((s.slot = 0 ∨ s.slot = 3) → occ t = occ s) ∧
    (s.slot = 1 → occ t = if rdy = true then occ s - min 8 (occ s) else occ s) ∧
    (s.slot = 2 → (t.out.rsp.did = false ∧ occ t = occ s) ∨ (t.out.rsp.did = true ∧ occ t = occ s + 5)) ∧
    t.slot = s.slot + 1 ∧ t.out.rsp.slot = s.slot

-- The command interpreter.

/-- R225, R231: WHO appends the identification string and CR LF, and resets the token buffer. -/
def Obligations.WhoRepliesTheIdentification : Prop :=
  ∀ s : State, pushOk s = true → occ s + (s.cfg.whoString.length + 2) < s.cfg.txCap →
    ∃ t, exec .who s = .next t ∧ RingAppended s t (s.cfg.whoString ++ [0x0D, 0x0A]) ∧
      t = { s with txBuf := t.txBuf, txWr := t.txWr, tok := [], out := {} }

/-- R226, R231, R238: GET reads register `tos` and appends its value as two hex digits and CR LF. A plain storage register
gives its contents; of any other register nothing is said of the value (U17). Which registers are plain storage is a parameter
of the model (its choice, log 15). -/
def Obligations.GetRepliesTheRegisterInHex : Prop :=
  ∀ s : State, pushOk s = true → occ s + 4 < s.cfg.txCap →
    ∃ (t : State) (v : Byte), exec .get s = .next t ∧
      (isStorage s.cfg s.tos = true → v = devContents s s.tos ∧ t.fresh = s.fresh) ∧
      RingAppended s t [hexDigit (v.extractLsb' 4 4), hexDigit (v.extractLsb' 0 4), 0x0D, 0x0A] ∧
      t = { s with
        txBuf := t.txBuf, txWr := t.txWr, tok := [], fresh := t.fresh, out := { regBus := [.read s.tos v] } }

/-- R227, R231, R238: SET writes `val` to register `tos` and replies CR LF; a plain storage register then holds `val` and no
other register's contents change (the storage map is the model's choice, log 15). -/
def Obligations.SetWritesTheRegister : Prop :=
  ∀ s : State, pushOk s = true → occ s + 2 < s.cfg.txCap →
    ∃ t, exec .set s = .next t ∧ RingAppended s t [0x0D, 0x0A] ∧
      (∀ a, devContents t a = if a = s.tos ∧ isStorage s.cfg s.tos = true then s.val else devContents s a) ∧
      t = { s with
        txBuf := t.txBuf, txWr := t.txWr, devMem := t.devMem, tok := [], out := { regBus := [.write s.tos s.val] } }

/-- R228, R231: SET_TWICE writes `val`, then `val2`, to register `tos` and replies CR LF; a plain storage register ends
with `val2` (the storage map is the model's choice, log 15). -/
def Obligations.SetTwiceWritesBothInOrder : Prop :=
  ∀ s : State, pushOk s = true → occ s + 2 < s.cfg.txCap →
    ∃ t, exec .setTwice s = .next t ∧ RingAppended s t [0x0D, 0x0A] ∧
      (∀ a, devContents t a = if a = s.tos ∧ isStorage s.cfg s.tos = true then s.val2 else devContents s a) ∧
      t = { s with
        txBuf := t.txBuf, txWr := t.txWr, devMem := t.devMem, tok := [],
        out := { regBus := [.write s.tos s.val, .write s.tos s.val2] } }

/-- R229, R231: AND_SET, OR_SET and XOR_SET read register `tos`, combine it with `val`, store the result back, and reply
CR LF (the storage map is the model's choice, log 15). -/
def Obligations.CombiningCommandsReadModifyWrite : Prop :=
  ∀ (s : State) (i : Instr) (f : Byte → Byte → Byte),
    ((i = .andSet ∧ ∀ x y, f x y = x &&& y) ∨ (i = .orSet ∧ ∀ x y, f x y = x ||| y) ∨
      (i = .xorSet ∧ ∀ x y, f x y = x ^^^ y)) →
    pushOk s = true → occ s + 2 < s.cfg.txCap →
    ∃ (t : State) (v : Byte), exec i s = .next t ∧
      (isStorage s.cfg s.tos = true → v = devContents s s.tos ∧ t.fresh = s.fresh) ∧
      RingAppended s t [0x0D, 0x0A] ∧
      (∀ a, devContents t a = if a = s.tos ∧ isStorage s.cfg s.tos = true then f v s.val else devContents s a) ∧
      t = { s with
        txBuf := t.txBuf, txWr := t.txWr, devMem := t.devMem, tok := [], fresh := t.fresh,
        out := { regBus := [.read s.tos v, .write s.tos (f v s.val)] } }

/-- R230, R231: ERROR, whatever the character, appends `!` and CR LF and resets the token buffer. -/
def Obligations.ErrorRepliesBang : Prop :=
  ∀ (c : Byte) (s : State), pushOk s = true → occ s + 3 < s.cfg.txCap →
    ∃ t, exec (.error c) s = .next t ∧ RingAppended s t [0x21, 0x0D, 0x0A] ∧
      t = { s with txBuf := t.txBuf, txWr := t.txWr, tok := [], out := {} }

/-- W2, R226, R227, R238: on a plain storage register (the storage map is the model's choice, log 15), SET then GET replies the
value written. -/
def Obligations.SetThenGetRoundTrips : Prop :=
  ∀ s : State, pushOk s = true → isStorage s.cfg s.tos = true → occ s + 6 < s.cfg.txCap →
    ∃ t, performAll [.set, .get] s = .next t ∧
      ringQueue t = ringQueue s ++ [0x0D, 0x0A] ++ hexByte s.val ++ [0x0D, 0x0A]

/-- R131, R244: a command whose reply does not fit the free places of the ring ends in `F_TXOVF`. The lengths are those of
R244. -/
def Obligations.CommandReplyWithoutRoomFaults : Prop :=
  ∀ (i : Instr) (s : State) (v : Byte), isCommand i = true → pushOk s = true →
    s.cfg.txCap ≤ occ s + (replyBytes s.cfg v i).length →
    ∃ b wr, exec i s = .fault (.txOvf b wr s.txRd)

/-- R221 to R223, R232 to R236: what a host byte does when it completes no command: a token byte is normalised and appended; a
delimiter on an empty buffer or after three bytes does nothing; after two hex digits it shifts the number into the
ValueStack; after four or more bytes, the address of the name. After any token of two, or of four or more bytes, whatever it
spells, some value is shifted in, the token buffer is empty and nothing else changes but the counter of free values: the value is
free for a two-byte token that is no number and for a good stem with a last byte outside `A`..`D` (log 16), and for a token of
six or more bytes (log 17). -/
def Obligations.TokenizerFollowsTheLengthThresholds : Prop :=
  ∀ (s : State) (b : Byte) (q : List Event), s.rst = false → s.pending = .host b :: q →
    (0x20 < b → step s = .next { s with pending := q, tok := s.tok ++ [upcase b] }) ∧
    (b ≤ 0x20 → (s.tok.length = 0 ∨ s.tok.length = 3) → step s = .next { s with pending := q }) ∧
    (∀ (hi lo v : Byte), b ≤ 0x20 → s.tok = [hi, lo] → hexByte v = [hi, lo] →
      step s = .next { s with pending := q, tok := [], tos := v, val := s.tos, val2 := s.val }) ∧
    (∀ v : Byte, b ≤ 0x20 → 4 ≤ s.tok.length → resolveName? s.tok = some v →
      step s = .next { s with pending := q, tok := [], tos := v, val := s.tos, val2 := s.val }) ∧
    (b ≤ 0x20 → (s.tok.length = 2 ∨ 4 ≤ s.tok.length) →
      ∃ (v : Byte) (n : Nat), step s = .next
        { s with pending := q, tok := [], tos := v, val := s.tos, val2 := s.val, fresh := n })

/-- R236, R237, R222: the twelve register names and their addresses, the sentinel for an unknown stem, and the normalisation of
letters. Where U19 says any value the model gives none, and a free value is pushed: a good stem with a last byte outside
`A`..`D` (log 16), a token of six or more bytes (log 17). -/
def Obligations.RegisterNamesResolveToTheirAddresses : Prop :=
  (∀ l : Byte, l ∈ [0x41, 0x42, 0x43, 0x44] →
    resolveName? [0x50, 0x49, 0x4E, l] = some (0x30 + (0x44 - l) * 3) ∧
    resolveName? [0x44, 0x44, 0x52, l] = some (0x30 + (0x44 - l) * 3 + 1) ∧
    resolveName? [0x50, 0x4F, 0x52, 0x54, l] = some (0x30 + (0x44 - l) * 3 + 2)) ∧
  resolveName? [0x50, 0x4F, 0x52, 0x54, 0x42] = some 0x38 ∧ resolveName? [0x50, 0x49, 0x4E, 0x44] = some 0x30 ∧
  (∀ (stem : List Byte) (l : Byte), stem.length ≤ 4 →
    stem ∉ [[0x50, 0x49, 0x4E], [0x44, 0x44, 0x52], [0x50, 0x4F, 0x52, 0x54]] → resolveName? (stem ++ [l]) = some 0x20) ∧
  (∀ (stem : List Byte) (l : Byte), stem ∈ [[0x50, 0x49, 0x4E], [0x44, 0x44, 0x52], [0x50, 0x4F, 0x52, 0x54]] →
    (l < 0x41 ∨ 0x44 < l) → resolveName? (stem ++ [l]) = none) ∧
  (∀ tok : List Byte, 6 ≤ tok.length → resolveName? tok = none) ∧
  (∀ c : Byte, 0x61 ≤ c → c ≤ 0x7A → upcase c = c - 0x20) ∧
  (∀ c : Byte, (c < 0x61 ∨ 0x7A < c) → upcase c = c)

-- The whole machine.

/-- R270, R291, R294, R297: an instruction is refused exactly when it breaks the profile the run claims or the context it was
declared to come from (claim and declaration are the model's fields, logs 7 and 8), with `slot` recorded; no instruction is
refused for want of a meaning. -/
def Obligations.RefusedExactlyAgainstProfileOrContext : Prop :=
  ∀ (i : Instr) (s : State),
    ((∃ r, exec i s = .refused r) ↔ breaksProfile i s) ∧
    (∀ r, exec i s = .refused r → ∃ w, r = .profile w s.slot)

/-- R291, R292: an instruction faults only with `F_TXOVF`, only if it pushes, and the recorded cursors are those of a ring
holding `TX_CAP - 1` bytes. -/
def Obligations.FaultsOnlyOnRingOverflow : Prop :=
  ∀ (i : Instr) (s : State) (f : Fault), exec i s = .fault f →
    mayPush i s ∧ ∃ (b : Byte) (wr : Nat), f = .txOvf b wr s.txRd ∧
      ((wr : Int) - (s.txRd : Int)) % (s.cfg.txCap : Int) = (s.cfg.txCap : Int) - 1

/-- R291, R293: in a run that claims no profile and declares no issuers, no step is refused. -/
def Obligations.NoStepIsRefusedInAnUnattributedDirectRun : Prop :=
  ∀ s : State, s.profile = .direct → (∀ c w, Event.op c w ∈ s.pending → c = none) →
    ∀ r, step s ≠ .refused r

/-- R291, R6: no step clears the sticky mark, changes the parameters or changes the claimed profile. -/
def Obligations.StepsKeepMarkAndConfiguration : Prop :=
  ∀ s t : State, step s = .next t →
    (∀ w, s.rsvdMark = some w → t.rsvdMark = some w) ∧ t.cfg = s.cfg ∧ t.profile = s.profile

/-- R43, R135, R26: every step keeps the invariant. -/
def Obligations.StepsKeepTheInvariant : Prop := ∀ s t : State, StateInv s → step s = .next t → StateInv t

/-- R39, R70: which instructions may write which state; whatever they do not write is unchanged. -/
def Obligations.InstructionsWriteOnlyTheStateTheyOwn : Prop :=
  ∀ (i : Instr) (s t : State), exec i s = .next t →
    (¬ mayPush i s → t.txBuf = s.txBuf ∧ t.txWr = s.txWr) ∧
    (i ≠ .drain → (∀ r, i = .loopstep r → s.slot ≠ 1) → t.txRd = s.txRd ∧ t.txZlp = s.txZlp) ∧
    ((∀ id, i ≠ .raise id) → i ≠ .evdrain → (∀ r, i = .loopstep r → s.slot ≠ 2) → t.evPending = s.evPending) ∧
    ((∀ raw, i ≠ .tick raw) → t.stable = s.stable ∧ t.ct0 = s.ct0 ∧ t.ct1 = s.ct1) ∧
    ((∀ raw, i ≠ .tick raw) → (∀ m, i ≠ .press m) → (∀ r, i = .loopstep r → s.slot ≠ 3) → t.press = s.press) ∧
    (i ≠ .pwrstep → (∀ r, i = .loopstep r → s.slot ≠ 3) → t.pwrIdx = s.pwrIdx) ∧
    (i ≠ .pwmovf → t.pwmCnt = s.pwmCnt ∧ t.heaterOn = s.heaterOn ∧ t.ledOn = s.ledOn) ∧
    ((∀ r, i ≠ .loopstep r) → t.slot = s.slot) ∧
    (isCommand i = false → t.tok = s.tok ∧ t.devMem = s.devMem) ∧
    t.tos = s.tos ∧ t.val = s.val ∧ t.val2 = s.val2 ∧ t.pending = s.pending ∧ t.rst = s.rst ∧ t.issuer = s.issuer ∧
    t.cfg = s.cfg ∧ t.profile = s.profile ∧ t.epoch = s.epoch

/-- R297: two interrupt-context operations, not both TICK, give the same state in either order, results aside. -/
def Obligations.InterruptOperationsCommute : Prop :=
  ∀ (i j : Instr) (s : State), i.context = some .interrupt → j.context = some .interrupt →
    (∀ a b, ¬ (i = .tick a ∧ j = .tick b)) → i.wf s.cfg = true → j.wf s.cfg = true → s.issuer ≠ some .main →
    ∃ t u, performAll [i, j] s = .next t ∧ performAll [j, i] s = .next u ∧ sameButOut t u

/-- R269: an interrupt-context operation gives the same state before or after a DRAIN or a PUSH, results aside. -/
def Obligations.InterruptOperationsCommuteWithTheRing : Prop :=
  ∀ (i j : Instr) (s t : State), i.context = some .interrupt → i.wf s.cfg = true →
    (j = .drain ∨ ∃ b, j = .push b) → s.issuer = none → s.pwrIdx.toNat < s.cfg.pwrStepsLen →
    performAll [i, j] s = .next t → ∃ u, performAll [j, i] s = .next u ∧ sameButOut t u

/-- The model's choice for R270, R291 and R294 (logs 7 and 8): which issues are against the claimed profile or the declared
context, and the word and the slot that each refusal records. For a command the word is the PUSH its reply begins with (log 7);
a RAISE out of range is a reserved word and not refused (log 5). -/
def Obligations.RefusalsRecordTheWordAndTheSlot : Prop :=
  ∀ s : State,
    (s.issuer ≠ some .interrupt →
      (mainDirectOk s = true ↔ s.profile = .direct) ∧ (pushOk s = true ↔ (s.profile = .scheduled → s.slot = 0))) ∧
    (s.issuer = some .interrupt →
      mainDirectOk s = false ∧ pushOk s = false ∧
        ∀ r, exec (.loopstep r) s = .refused (.profile (0x9000 + (BitVec.ofBool r).setWidth 16) s.slot)) ∧
    (s.issuer = some .main →
      (∀ raw : Byte, exec (.tick raw) s = .refused (.profile (0x1000 + raw.setWidth 16) s.slot)) ∧
        exec .pwmovf s = .refused (.profile 0x2000 s.slot) ∧
        ∀ id : Byte, s.cfg.evMin ≤ id.toNat → id.toNat ≤ s.cfg.evMax →
          exec (.raise id) s = .refused (.profile (0x3000 + id.setWidth 16) s.slot)) ∧
    (mainDirectOk s = false →
      exec .drain s = .refused (.profile 0x5000 s.slot) ∧ exec .evdrain s = .refused (.profile 0x6000 s.slot) ∧
        (∀ mask : Byte, exec (.press mask) s = .refused (.profile (0x7000 + mask.setWidth 16) s.slot)) ∧
        exec .pwrstep s = .refused (.profile 0x8000 s.slot)) ∧
    (pushOk s = false →
      (∀ b : Byte, exec (.push b) s = .refused (.profile (0x4000 + b.setWidth 16) s.slot)) ∧
        ∀ i, isCommand i = true → ∃ v : Byte,
          exec i s = .refused (.profile (0x4000 + ((replyBytes s.cfg v i).headD 0).setWidth 16) s.slot))
end

