-- ==== Sys2Proof/Laws/PerInstr.lean ====
section
/-!
SUPPORT. The family TableRow: the word of every instruction matches its row of spec/opcode_table.json, `w AND mask = match`
(R92, R224), one lemma per constructor.
-/

namespace Sys2Proof.Laws

/-- The row's match value and mask as spec/opcode_table.json prints them; the ERROR row is the table's default row and has
neither. -/
def rowOf : Instr → Option (Nat × Nat)
  | .nop => some (0x0000, 0xFFFF)
  | .tick _ => some (0x1000, 0xFF00)
  | .pwmovf => some (0x2000, 0xFFFF)
  | .raise _ => some (0x3000, 0xFF00)
  | .push _ => some (0x4000, 0xFF00)
  | .drain => some (0x5000, 0xFFFF)
  | .evdrain => some (0x6000, 0xFFFF)
  | .press _ => some (0x7000, 0xFF00)
  | .pwrstep => some (0x8000, 0xFFFF)
  | .loopstep _ => some (0x9000, 0xFFFE)
  | .who => some (0x40, 0xFF)
  | .get => some (0x3F, 0xFF)
  | .set => some (0x3D, 0xFF)
  | .setTwice => some (0x24, 0xFF)
  | .andSet => some (0x26, 0xFF)
  | .orSet => some (0x7C, 0xFF)
  | .xorSet => some (0x5E, 0xFF)
  | .error _ => none

/-- The bits of an encoding as a number. -/
def codeBits : Code → Nat
  | .op16 w => w.toNat
  | .cmdChar c => c.toNat

/-- The encoding of `i` matches its row. -/
def TableRow.Statement (i : Instr) : Prop :=
  ∀ m k : Nat, rowOf i = some (m, k) → codeBits (encode i) &&& k = m

/-- The high byte of an operation word with an 8-bit operand. -/
theorem opWord_high (opc : BitVec 4) (imm : Byte) : (opWord opc imm).toNat &&& 0xFF00 = opc.toNat * 0x1000 := by
  have h : ∀ opc : BitVec 4, ∀ imm : Byte, (opWord opc imm) &&& (0xFF00#16) = (opc.setWidth 16) <<< 12 := by
    intro opc imm
    apply BitVec.eq_of_getLsbD_eq
    intro i hi
    simp only [opWord, BitVec.getLsbD_and, BitVec.getLsbD_shiftLeft, BitVec.getLsbD_append]
    interval_cases i <;> simp
  have h2 := congrArg BitVec.toNat (h opc imm)
  have h3 := opc.isLt
  rw [BitVec.toNat_and, BitVec.toNat_shiftLeft, Nat.shiftLeft_eq, BitVec.toNat_setWidth] at h2
  have h4 : (0xFF00#16).toNat = 0xFF00 := rfl
  rw [h4] at h2
  omega

theorem TableRow.nop : TableRow.Statement .nop := by rintro m k ⟨⟩; rfl

theorem TableRow.tick (raw : Byte) : TableRow.Statement (.tick raw) := by rintro m k ⟨⟩; exact opWord_high 0x1 raw

theorem TableRow.pwmovf : TableRow.Statement .pwmovf := by rintro m k ⟨⟩; rfl

theorem TableRow.raise (id : Byte) : TableRow.Statement (.raise id) := by rintro m k ⟨⟩; exact opWord_high 0x3 id

theorem TableRow.push (byte : Byte) : TableRow.Statement (.push byte) := by rintro m k ⟨⟩; exact opWord_high 0x4 byte

theorem TableRow.drain : TableRow.Statement .drain := by rintro m k ⟨⟩; rfl

theorem TableRow.evdrain : TableRow.Statement .evdrain := by rintro m k ⟨⟩; rfl

theorem TableRow.press (mask : Byte) : TableRow.Statement (.press mask) := by rintro m k ⟨⟩; exact opWord_high 0x7 mask

theorem TableRow.pwrstep : TableRow.Statement .pwrstep := by rintro m k ⟨⟩; rfl

theorem TableRow.loopstep (rdy : Bool) : TableRow.Statement (.loopstep rdy) := by cases rdy <;> rintro m k ⟨⟩ <;> rfl

theorem TableRow.who : TableRow.Statement .who := by rintro m k ⟨⟩; rfl

theorem TableRow.get : TableRow.Statement .get := by rintro m k ⟨⟩; rfl

theorem TableRow.set : TableRow.Statement .set := by rintro m k ⟨⟩; rfl

theorem TableRow.setTwice : TableRow.Statement .setTwice := by rintro m k ⟨⟩; rfl

theorem TableRow.andSet : TableRow.Statement .andSet := by rintro m k ⟨⟩; rfl

theorem TableRow.orSet : TableRow.Statement .orSet := by rintro m k ⟨⟩; rfl

theorem TableRow.xorSet : TableRow.Statement .xorSet := by rintro m k ⟨⟩; rfl

theorem TableRow.error (c : Byte) : TableRow.Statement (.error c) := by rintro m k ⟨⟩

end Sys2Proof.Laws
end

