-- ==== Sys2Proof/Tests/Slice0.lean ====
section
/-!
SUPPORT. Small tests: well-formedness, one written-out word for every constructor, the vectors of spec/95_test_vectors.md one
step at a time, and a witness for the hypotheses of every statement. Expected results come from the spec, as cited.
-/

namespace Sys2Proof.Tests

open Sys2Proof Sys2Proof.Machine

/-- A projection of the next state, `none` where there is none. -/
def after {α : Type} (f : State → α) (o : Host.Outcome State Fault Refusal) : Option α :=
  match o with
  | .next t => some (f t)
  | .fault _ => none
  | .refused _ => none

/-- A ring with the given cells and cursors, all else as after reset. -/
def ringState (m : Memory) (wr rd : Nat) : State := { State.reset with txBuf := m, txWr := wr, txRd := rd }

/-- A state with events 3 and 5 pending. -/
def twoEvents : State := { State.reset with evPending := eventBit 0x03 ||| eventBit 0x05 }

-- Well-formedness: an ill-formed term for each check, refused (R96, R221, R222, R224; CFG-T, R7).

theorem test_wf_raise_below : (Instr.raise 0x00).wf cfgT = false := by decide

theorem test_wf_raise_above : (Instr.raise 0x20).wf cfgT = false := by decide

theorem test_wf_error_delimiter : (Instr.error 0x20).wf cfgT = false := by decide

theorem test_wf_error_lowercase : (Instr.error 0x61).wf cfgT = false := by decide

theorem test_wf_error_command : (Instr.error 0x40).wf cfgT = false := by decide

theorem test_params_wf_rejects :
    [{ cfgT with txAw := 2 }.wf, { cfgT with evMin := 0x20 }.wf, { cfgT with evMax := 256 }.wf,
      { cfgT with pressMask := 0 }.wf, { cfgT with pwrSteps := [] }.wf,
      { cfgT with pwrSteps := [1] }.wf,
      { cfgT with evSource := [] }.wf] = List.replicate 7 false := by decide

theorem test_params_wf_rejects_a_long_table : { cfgT with pwrSteps := List.replicate 257 0 }.wf = false := by
  have h : ∀ l : List Byte, 256 < l.length → { cfgT with pwrSteps := l }.wf = false := by
    intro l hl
    simp [Params.wf, Nat.not_le.mpr hl]
  exact h _ (by rw [List.length_replicate]; decide)

-- Decoding: one word per constructor, bit by bit (R91, R92, R102, R224; section 2.6 of 95_test_vectors.md).

theorem test_decode_nop : decode (.op16 0b0000000000000000) = .ok .nop := by decide

theorem test_decode_tick : decode (.op16 0b0001000011111110) = .ok (.tick 0xFE) := by decide

theorem test_decode_pwmovf : decode (.op16 0b0010000000000000) = .ok .pwmovf := by decide

theorem test_decode_raise : decode (.op16 0b0011000000000101) = .ok (.raise 0x05) := by decide

theorem test_decode_push : decode (.op16 0b0100000001000001) = .ok (.push 0x41) := by decide

theorem test_decode_drain : decode (.op16 0b0101000000000000) = .ok .drain := by decide

theorem test_decode_evdrain : decode (.op16 0b0110000000000000) = .ok .evdrain := by decide

theorem test_decode_press : decode (.op16 0b0111000000000001) = .ok (.press 0x01) := by decide

theorem test_decode_pwrstep : decode (.op16 0b1000000000000000) = .ok .pwrstep := by decide

theorem test_decode_loopstep : decode (.op16 0b1001000000000001) = .ok (.loopstep true) := by decide

theorem test_decode_who : decode (.cmdChar 0b01000000) = .ok .who := by decide

theorem test_decode_get : decode (.cmdChar 0b00111111) = .ok .get := by decide

theorem test_decode_set : decode (.cmdChar 0b00111101) = .ok .set := by decide

theorem test_decode_setTwice : decode (.cmdChar 0b00100100) = .ok .setTwice := by decide

theorem test_decode_andSet : decode (.cmdChar 0b00100110) = .ok .andSet := by decide

theorem test_decode_orSet : decode (.cmdChar 0b01111100) = .ok .orSet := by decide

theorem test_decode_xorSet : decode (.cmdChar 0b01011110) = .ok .xorSet := by decide

theorem test_decode_error : decode (.cmdChar 0b00100011) = .ok (.error 0x23) := by decide

theorem test_decode_reserved :
    ([0x0001, 0x11FE, 0x2001, 0x50FF, 0x6100, 0x8080, 0x9002, 0xA000, 0xFFFF].map fun w => decodeTableWord 16 w) =
      List.replicate 9 none := by decide

theorem test_legalWord_checks_the_range : (legalWord cfgT 0x3005, legalWord cfgT 0x3020) = (true, false) := by decide

theorem test_trace : ([Instr.tick 0xFE, .pwmovf, .loopstep true].map Instr.trace) = ["TICK 0xFE", "PWMOVF", "LOOPSTEP 1"] := by
  decide

-- The block, one step at a time.

/-- R266, S5. -/
theorem test_nop : after (fun t => (t.slot, t.out.rsp.err)) (exec .nop State.reset) = some (0, false) := by decide

/-- V1 tick 2: the first disagreeing tick. -/
theorem test_tick_first :
    after (fun t => (t.ct0, t.ct1, t.stable, t.press)) (exec (.tick 0xFE) State.reset) =
      some (0xFE, 0xFF, 0x00, 0x00) := by decide

/-- V3 tick 6: lane 3 settles beside lane 0. -/
theorem test_tick_settles :
    after (fun t => (t.ct0, t.ct1, t.stable, t.press))
      (exec (.tick 0xF6) { State.reset with ct0 := 0xF7, ct1 := 0xF7, stable := 0x01, press := 0x01 }) =
      some (0xFF, 0xFF, 0x09, 0x09) := by decide

/-- M7: the wrap turns the outputs on. -/
theorem test_pwmovf_on :
    after (fun t => (t.pwmCnt, t.heaterPort, t.ledPort)) (exec .pwmovf { State.reset with pwrIdx := 1, pwmCnt := 0xFF }) =
      some (0x00, true, true) := by decide

/-- M6 and R201: at threshold 0 the wrap turns them off. -/
theorem test_pwmovf_threshold_zero :
    after (fun t => (t.pwmCnt, t.heaterPort, t.ledPort))
      (exec .pwmovf { State.reset with pwmCnt := 0xFF, heaterOn := true, ledOn := true }) =
      some (0x00, false, false) := by decide

/-- R150's example. -/
theorem test_raise : after State.evPending (exec (.raise 0x05) State.reset) = some (eventBit 0x05) := by decide

/-- E4: out of range under CFG-T. -/
theorem test_raise_out_of_range :
    after (fun t => (t.evPending, t.out.rsp.err, t.rsvdMark)) (exec (.raise 0x20) State.reset) =
      some (0, true, some 0x3020) := by decide

/-- R130's example. -/
theorem test_push :
    after (fun t => (t.txBuf, t.txWr, t.txRd, occ t)) (exec (.push 0x41) State.reset) =
      some ([(0, 0x41)], 1, 0, 1) := by decide

/-- T6: the sixteenth PUSH. -/
theorem test_push_overflow : exec (.push 0xEE) (ringState [] 15 0) = .fault (.txOvf 0xEE 15 0) := rfl

/-- T4, DRAIN 3: the chunk crosses the wrap. -/
theorem test_drain_wrap :
    after (fun t => (t.txRd, t.txZlp, t.out.rsp.n, t.out.txChunk))
      (exec .drain (ringState [(0, 0x58), (1, 0x59), (2, 0x5A), (14, 0x56), (15, 0x57)] 3 14)) =
      some (3, false, 5, some [0x56, 0x57, 0x58, 0x59, 0x5A]) := by decide

/-- T2: eight bytes drained, the terminator owed. -/
theorem test_drain_full :
    after (fun t => (t.txRd, t.txZlp, t.out.rsp.n, t.out.rsp.was8)) (exec .drain (ringState [] 8 0)) =
      some (8, true, 8, true) := by decide

/-- E1: the lower of two events. -/
theorem test_evdrain :
    after (fun t => (t.out.rsp.id, t.txBuf, t.txWr, t.evPending)) (exec .evdrain twoEvents) =
      some (0x03, [(0, 0x5C), (1, 0x30), (2, 0x33), (3, 0x0D), (4, 0x0A)], 5, eventBit 0x05) := by decide

/-- T7: the fifth byte finds the ring full. -/
theorem test_evdrain_overflow :
    exec .evdrain { ringState [] 11 0 with evPending := eventBit 0x01 } = .fault (.txOvf 0x0A 15 0) := rfl

/-- V3, PRESS 0x01. -/
theorem test_press :
    after (fun t => (t.out.rsp.pressed, t.press)) (exec (.press 0x01) { State.reset with press := 0x09 }) =
      some (0x01, 0x08) := by decide

/-- V8: the index wraps. -/
theorem test_pwrstep : after State.pwrIdx (exec .pwrstep { State.reset with pwrIdx := 3 }) = some 0 := by decide

/-- S3. -/
theorem test_loopstep_press :
    after (fun t => (t.out.rsp.slot, t.out.rsp.did, t.out.rsp.pressed, t.press, t.pwrIdx, t.slot))
      (exec (.loopstep false) { State.reset with press := 0x01, pwrIdx := 3, slot := 3 }) =
      some (3, true, 0x01, 0x00, 0, 0) := by decide

/-- S6: the owed terminator is a zero-length transaction. -/
theorem test_loopstep_terminator :
    after (fun t => (t.out.rsp.did, t.out.rsp.n, t.txZlp, t.out.txChunk))
      (exec (.loopstep true) { State.reset with txZlp := true, slot := 1 }) = some (true, 0, false, some []) := by decide

-- The interpreter.

/-- A state whose registers are all plain storage, with a ValueStack. -/
def storageState : State :=
  { State.reset with
    cfg := { cfgT with devStorage := BitVec.allOnes 256 }, tos := 0x38, val := 0x05, val2 := 0x0A, devMem := [(0x38, 0x1B)] }

/-- R225, with CFG-T's empty string. -/
theorem test_who : after State.txBuf (exec .who State.reset) = some [(0, 0x0D), (1, 0x0A)] := by decide

/-- R226: the value `0x1B`. -/
theorem test_get :
    after (fun t => (t.txBuf, t.out.regBus)) (exec .get storageState) =
      some ([(0, 0x31), (1, 0x42), (2, 0x0D), (3, 0x0A)], [.read 0x38 0x1B]) := by decide

/-- W5, the token order with the stated effect: `0x05` to register `0x38`. -/
theorem test_set :
    after (fun t => (t.devMem, t.txWr, t.out.regBus)) (exec .set storageState) =
      some ([(0x38, 0x05)], 2, [.write 0x38 0x05]) := by decide

/-- W3, R228. -/
theorem test_setTwice :
    after (fun t => (t.devMem, t.out.regBus)) (exec .setTwice storageState) =
      some ([(0x38, 0x0A)], [.write 0x38 0x05, .write 0x38 0x0A]) := by decide

/-- R229: `0x1B` with `0x05`. -/
theorem test_combine :
    (after State.devMem (exec .andSet storageState), after State.devMem (exec .orSet storageState),
      after State.devMem (exec .xorSet storageState)) =
      (some [(0x38, 0x01)], some [(0x38, 0x1F)], some [(0x38, 0x1E)]) := by decide

/-- W6: `#` and a space. -/
theorem test_error :
    after (fun t => (t.txBuf, t.txWr, t.tok))
      (step { State.reset with tok := [0x23], pending := [.host 0x20, .host 0x20] }) =
      some ([(0, 0x21), (1, 0x0D), (2, 0x0A)], 3, []) := by decide

/-- R222 and R237: a lowercase letter is normalised, and `PORTB` resolves to `0x38`. -/
theorem test_tokens :
    (after State.tok (step { State.reset with tok := [0x50], pending := [.host 0x6F] }),
      after State.tos (step { State.reset with tok := [0x50, 0x4F, 0x52, 0x54, 0x42], pending := [.host 0x20] })) =
      (some [0x50, 0x4F], some 0x38) := by decide

/-- U19: a two-byte token that is no number, a good stem with the letter `E`, a token of six bytes: the buffer is emptied and the
stack shifted, and the value pushed is not asked for. -/
theorem test_open_tokens :
    ([[0x47, 0x31], [0x50, 0x49, 0x4E, 0x45], [0x50, 0x4F, 0x52, 0x54, 0x42, 0x42]].map fun tok : List Byte =>
      after (fun t => (t.tok, t.val, t.val2, t.txWr))
        (step { State.reset with tok := tok, tos := 0x01, val := 0x02, val2 := 0x03, pending := [.host 0x0D] })) =
      List.replicate 3 (some ([], 0x01, 0x02, 0)) := by decide

/-- R222: the 4-byte buffer after `PORTB` holds `B`, `O`, `R`, `T` (C4). -/
theorem test_token_buffer :
    ([0, 1, 2, 3].map (tokenBuffer [0x50, 0x4F, 0x52, 0x54, 0x42])) = [some 0x42, some 0x4F, some 0x52, some 0x54] := by
  decide

-- The fixed names of the host: every row's word is the first instruction after reset.

theorem test_first_instruction_op16 :
    ((List.range 10).map fun k => (after (fun t => t.out.rsp.err) (step (State.reset.withFetchWord 16 (k * 0x1000))))) =
      (List.range 10).map fun k => some (k == 3) := by decide

theorem test_first_instruction_char :
    ([0x40, 0x3F, 0x3D, 0x24, 0x26, 0x7C, 0x5E, 0x23].map fun w =>
      after State.txWr (step (State.reset.withFetchWord 8 w))) =
      [some 2, some 4, some 2, some 2, some 2, some 2, some 2, some 3] := by decide

/-- Section 2.5 S1 and R104: an idle iteration comes back to slot 0. -/
theorem test_iter : after State.slot (performAll (pseudoIter true) State.reset) = some 0 := by decide

-- Witnesses: for every statement with hypotheses, a state and operands that meet them, each clause at a boundary value.

/-- One event presented after reset. -/
def presented (e : Event) : State := { State.reset with pending := [e] }

/-- The same while `rst` is asserted. -/
def heldReset (e : Event) : State := { presented e with rst := true }

/-- After reset in a run that claims the scheduled profile, at slot `n`. -/
def scheduledAt (n : SlotNo) : State := { State.reset with profile := .scheduled, slot := n }

/-- Two events pending with `wr` bytes in the ring, at slot `n`. -/
def eventsAt (n : SlotNo) (wr : Nat) : State := { twoEvents with slot := n, txWr := wr }

/-- Lane 0 one tick before it settles. -/
def aboutToSettle : State := { State.reset with ct0 := 0xFE, ct1 := 0xFE }

theorem twoEvents_lowest (k : Nat) (h1 : twoEvents.cfg.evMin ≤ k) (h2 : k < (0x03 : Byte).toNat) :
    twoEvents.evPending.getLsbD k = false := by
  have h1' : 1 ≤ k := h1
  have h2' : k < 3 := h2
  have : k = 1 ∨ k = 2 := by omega
  rcases this with rfl | rfl <;> decide

theorem witness_ResetMeetsTheInvariant : cfgT.wf = true := by decide

theorem witness_RstHoldsAndReleasesTheBlock :
    (presented (.rst true)).pending = .rst true :: [] ∧
      ((heldReset (.op none 0x4041)).rst = true ∧ (heldReset (.op none 0x4041)).pending = .op none 0x4041 :: []) ∧
      ((heldReset (.host 0x41)).rst = true ∧ (heldReset (.host 0x41)).pending = .host 0x41 :: []) ∧
      ((presented (.rst false)).rst = false ∧ (presented (.rst false)).pending = .rst false :: []) ∧
      ((heldReset (.rst false)).rst = true ∧ (heldReset (.rst false)).pending = .rst false :: []) := by decide

theorem witness_StepRunsTheDecodedInstruction :
    ((presented (.op none 0x9001)).rst = false ∧ (presented (.op none 0x9001)).pending = .op none 0x9001 :: [] ∧
        decode (.op16 0x9001) = .ok (.loopstep true)) ∧
      ((∃ s : State, s.rst = false ∧ s.pending = .host 0x20 :: [] ∧ (0x20 : Byte) ≤ 0x20 ∧ s.tok = [0x40]) ∧
        decodeChar 0x40 = .ok .who) ∧
      State.reset.pending = [] ∧ decodeTableWord 16 0x4000 = some (.push 0x00) ∧
      decodeTableWord 8 0x61 = some (.error 0x41) :=
  ⟨by decide, ⟨⟨{ presented (.host 0x20) with tok := [0x40] }, by decide⟩, by decide⟩, by decide, by decide, by decide⟩

theorem witness_ReservedWordChangesNoState :
    (presented (.op none 0x9002)).rst = false ∧ (presented (.op none 0x9002)).pending = .op none 0x9002 :: [] ∧
      decodeOp16 0x9002 = .error (.reservedOperand 0x9002) := by decide

theorem witness_DecodeOfEncodeIsTheInstruction :
    (Instr.raise 0x01).wf cfgT = true ∧ (Instr.raise 0x1F).wf cfgT = true ∧ (Instr.error 0x21).wf cfgT = true ∧
      (Instr.error 0xFF).wf cfgT = true ∧ ∃ id, Instr.raise 0x00 = .raise id :=
  ⟨by decide, by decide, by decide, by decide, 0x00, rfl⟩

theorem witness_DecodedWordsEncodeBack :
    decode (.op16 0x70FF) = .ok (.press 0xFF) ∧ decode (.cmdChar 0x21) = .ok (.error 0x21) ∧
      decode (.cmdChar 0x61) = .ok (.error 0x41) ∧ decode (.cmdChar 0x41) = .ok (.error 0x41) := by decide

theorem witness_TokenByteSelectsItsCommand :
    ((0x20 : Byte) < 0x21 ∧ (0x21 : Byte) ∉ [0x40, 0x3F, 0x3D, 0x24, 0x26, 0x7C, 0x5E]) ∧ (0x20 : Byte) ≤ 0x20 := by decide

theorem witness_TickComputesTheDebounceEquations :
    State.reset.issuer ≠ some .main := by decide

theorem witness_TickLanesFollowTheTable :
    (7 < 8 ∧ (after (fun _ => ()) (exec (.tick 0xFF) State.reset)).isSome = true ∧ laneChanged State.reset 0xFF 7 = false) ∧
      ((after (fun _ => ()) (exec (.tick 0x7F) State.reset)).isSome = true ∧ laneChanged State.reset 0x7F 7 = true ∧
        0 < laneCount State.reset 7) ∧
      ((after (fun _ => ()) (exec (.tick 0xFE) aboutToSettle)).isSome = true ∧ laneChanged aboutToSettle 0xFE 0 = true ∧
        laneCount aboutToSettle 0 = 0) := by decide

theorem witness_FourDisagreeingTicksSettleALane :
    7 < 8 ∧ State.reset.issuer ≠ some .main ∧ laneCount State.reset 7 = 3 ∧
      (0x7F : Byte).getLsbD 7 = State.reset.stable.getLsbD 7 := by decide

theorem witness_GlitchesShorterThanFourTicksAreRejected :
    0 < 8 ∧ State.reset.issuer ≠ some .main ∧ laneCount State.reset 0 = 3 ∧ [(0xFE : Byte), 0xFE, 0xFE].length ≤ 3 ∧
      (0xFF : Byte).getLsbD 0 = !State.reset.stable.getLsbD 0 := by decide

theorem witness_PwmovfIncrementsAndCompares :
    (State.reset.issuer ≠ some .main ∧ State.reset.cfg.pwrSteps[State.reset.pwrIdx.toNat]? = some 0x00) ∧
      ∃ s : State, s.issuer ≠ some .main ∧ s.cfg.pwrSteps[s.pwrIdx.toNat]? = some 0xC0 :=
  ⟨by decide, { State.reset with pwrIdx := 3 }, by decide⟩

theorem witness_PwmovfPastTheTableUsesAFreeThreshold :
    ∃ s : State, s.issuer ≠ some .main ∧ s.cfg.pwrStepsLen ≤ s.pwrIdx.toNat :=
  ⟨{ State.reset with pwrIdx := 4 }, by decide⟩

theorem witness_PwmDutyIsThresholdOver256 :
    ∃ s : State, s.issuer ≠ some .main ∧ s.cfg.pwrSteps[s.pwrIdx.toNat]? = some 0x40 ∧ s.pwmCnt = 0xFF :=
  ⟨{ State.reset with pwmCnt := 0xFF, pwrIdx := 1 }, by decide⟩

theorem witness_ThresholdZeroTurnsOffAtTheWrap :
    State.reset.issuer ≠ some .main ∧ State.reset.cfg.pwrSteps[State.reset.pwrIdx.toNat]? = some 0 ∧
      255 < 256 - State.reset.pwmCnt.toNat ∧ 256 - State.reset.pwmCnt.toNat ≤ 256 := by decide

theorem witness_RaiseSetsOneFlag :
    (State.reset.cfg.evMin ≤ (0x01 : Byte).toNat ∧ (0x01 : Byte).toNat ≤ State.reset.cfg.evMax ∧
        State.reset.issuer ≠ some .main) ∧
      (State.reset.cfg.evMin ≤ (0x1F : Byte).toNat ∧ (0x1F : Byte).toNat ≤ State.reset.cfg.evMax) := by decide

theorem witness_RaiseOutOfRangeChangesNoState :
    (0x00 : Byte).toNat < State.reset.cfg.evMin ∧ State.reset.cfg.evMax < (0x20 : Byte).toNat := by decide

theorem witness_EvdrainReportsTheLowestPendingEvent :
    (mainDirectOk State.reset = true ∧ State.reset.cfg.wf = true ∧
        ∀ j : Nat, State.reset.cfg.evMin ≤ j → j ≤ State.reset.cfg.evMax → State.reset.evPending.getLsbD j = false) ∧
      (mainDirectOk (eventsAt 0 10) = true ∧ (eventsAt 0 10).cfg.wf = true ∧
        (eventsAt 0 10).cfg.evMin ≤ (0x03 : Byte).toNat ∧ (0x03 : Byte).toNat ≤ (eventsAt 0 10).cfg.evMax ∧
        (eventsAt 0 10).evPending.getLsbD (0x03 : Byte).toNat = true ∧
        (∀ k : Nat, (eventsAt 0 10).cfg.evMin ≤ k → k < (0x03 : Byte).toNat → (eventsAt 0 10).evPending.getLsbD k = false) ∧
        occ (eventsAt 0 10) ≤ (eventsAt 0 10).cfg.txCap - 6) ∧
      ((eventsAt 0 11).evPending.getLsbD 3 = true ∧ (eventsAt 0 11).cfg.txCap - 6 < occ (eventsAt 0 11)) :=
  ⟨⟨by decide, by decide, fun j _ _ => by simp [State.reset, State.resetWith]⟩,
    ⟨by decide, by decide, by decide, by decide, by decide, twoEvents_lowest, by decide⟩, by decide, by decide⟩

theorem witness_EvdrainWithoutRoomFaults :
    mainDirectOk (eventsAt 0 11) = true ∧ (eventsAt 0 11).cfg.wf = true ∧ (eventsAt 0 11).txWr < (eventsAt 0 11).cfg.txCap ∧
      (eventsAt 0 11).cfg.evMin ≤ (0x03 : Byte).toNat ∧ (0x03 : Byte).toNat ≤ (eventsAt 0 11).cfg.evMax ∧
      (eventsAt 0 11).evPending.getLsbD (0x03 : Byte).toNat = true ∧
      (∀ k : Nat, (eventsAt 0 11).cfg.evMin ≤ k → k < (0x03 : Byte).toNat → (eventsAt 0 11).evPending.getLsbD k = false) ∧
      (eventsAt 0 11).cfg.txCap - 6 < occ (eventsAt 0 11) :=
  ⟨by decide, by decide, by decide, by decide, by decide, by decide, twoEvents_lowest, by decide⟩

theorem witness_RaisedEventsAreReportedOnceLowestFirst :
    ((0x01 : Byte) ∈ [(0x1F : Byte), 0x01, 0x1F] ∧ (0x1F : Byte) ∈ [(0x1F : Byte), 0x01, 0x1F] ∧
      ∀ id ∈ [(0x1F : Byte), 0x01, 0x1F], id = 0x01 ∨ id = 0x1F) ∧
    ∃ s : State, s.issuer = none ∧ s.profile = .direct ∧ s.cfg.wf = true ∧ s.cfg.evMin ≤ (0x01 : Byte).toNat ∧
      (0x01 : Byte).toNat < (0x1F : Byte).toNat ∧ (0x1F : Byte).toNat ≤ s.cfg.evMax ∧
      (∀ m : Nat, s.cfg.evMin ≤ m → m ≤ s.cfg.evMax → s.evPending.getLsbD m = false) ∧ occ s + 10 < s.cfg.txCap :=
  ⟨by decide, { State.reset with txWr := 5 }, by decide, by decide, by decide, by decide, by decide, by decide,
    fun m _ _ => by simp [State.reset, State.resetWith], by decide⟩

theorem witness_RaiseBesideEvdrainGivesOneOfTwoOrders :
    (eventsAt 0 10).issuer = none ∧ (eventsAt 0 10).profile = .direct ∧ (eventsAt 0 10).cfg.wf = true ∧
      (eventsAt 0 10).cfg.evMin ≤ (0x03 : Byte).toNat ∧ (0x03 : Byte).toNat ≤ (eventsAt 0 10).cfg.evMax ∧
      (eventsAt 0 10).evPending.getLsbD (0x03 : Byte).toNat = true ∧
      (∀ k : Nat, (eventsAt 0 10).cfg.evMin ≤ k → k < (0x03 : Byte).toNat → (eventsAt 0 10).evPending.getLsbD k = false) ∧
      occ (eventsAt 0 10) + 5 < (eventsAt 0 10).cfg.txCap :=
  ⟨by decide, by decide, by decide, by decide, by decide, by decide, twoEvents_lowest, by decide⟩

theorem witness_OccupancyIsTheCursorDifference :
    (ringState [] 15 15).txWr < (ringState [] 15 15).cfg.txCap ∧ (ringState [] 15 15).txRd < (ringState [] 15 15).cfg.txCap := by
  decide

theorem witness_PushAppendsOneByte :
    (pushOk (ringState [] 14 0) = true ∧ occ (ringState [] 14 0) ≠ (ringState [] 14 0).cfg.txCap - 1) ∧
      (pushOk (ringState [] 15 0) = true ∧ occ (ringState [] 15 0) = (ringState [] 15 0).cfg.txCap - 1) := by decide

theorem witness_DrainPullsUpToEightBytes :
    mainDirectOk (ringState [] 3 14) = true := by decide

theorem witness_TerminatorIsOwedAfterAFullEmptyingChunk :
    mainDirectOk (ringState [] 8 0) = true ∧ (ringState [] 8 0).txWr < (ringState [] 8 0).cfg.txCap := by decide

theorem witness_RingImplementsAFifoQueue :
    (after (fun _ => ()) (exec (.push 0x41) (ringState [] 14 0))).isSome = true ∧
      (after (fun _ => ()) (exec .drain (ringState [] 9 0))).isSome = true ∧ ¬ mayPush .drain (ringState [] 9 0) :=
  ⟨by decide, by decide, by simp [mayPush, isCommand]⟩

theorem witness_PressFetchesAndClears : mainDirectOk State.reset = true := by decide

theorem witness_PressIsConsumedOnce : ∃ s : State, mainDirectOk s = true ∧ s.press = 0x09 :=
  ⟨{ State.reset with press := 0x09 }, by decide⟩

theorem witness_TickBesidePressGivesOneOfTwoOrders :
    0 < 8 ∧ aboutToSettle.issuer = none ∧ aboutToSettle.profile = .direct ∧ laneChanged aboutToSettle 0xFE 0 = true ∧
      laneCount aboutToSettle 0 = 0 ∧ aboutToSettle.stable.getLsbD 0 = false ∧ (0x01 : Byte).getLsbD 0 = true := by decide

theorem witness_PwrstepAdvancesTheIndex : mainDirectOk State.reset = true := by decide

theorem witness_PwrstepsCycleThroughTheTable :
    ∃ s : State, mainDirectOk s = true ∧ s.cfg.wf = true ∧ s.pwrIdx.toNat < s.cfg.pwrStepsLen ∧ s.pwrIdx = 3 :=
  ⟨{ State.reset with pwrIdx := 3 }, by decide⟩

theorem witness_LoopstepAtPollOnlyAdvances : (scheduledAt 0).issuer ≠ some .interrupt ∧ (scheduledAt 0).slot = 0 := by decide

theorem witness_LoopstepAtTxdrainDrainsWhenDue :
    ((eventsAt 1 1).issuer ≠ some .interrupt ∧ (eventsAt 1 1).slot = 1 ∧ 0 < occ (eventsAt 1 1)) ∧
      (∃ s : State, s.issuer ≠ some .interrupt ∧ s.slot = 1 ∧ occ s = 0 ∧ s.txZlp = true) ∧
      ((scheduledAt 1).issuer ≠ some .interrupt ∧ (scheduledAt 1).slot = 1 ∧
        ¬ (true = true ∧ (0 < occ (scheduledAt 1) ∨ (scheduledAt 1).txZlp = true))) :=
  ⟨by decide, ⟨{ scheduledAt 1 with txZlp := true }, by decide⟩, by decide⟩

theorem witness_LoopstepAtEvdrainReportsOneEvent :
    ((eventsAt 2 10).issuer ≠ some .interrupt ∧ (eventsAt 2 10).slot = 2 ∧ (eventsAt 2 10).cfg.wf = true ∧
        occ (eventsAt 2 10) + 5 < (eventsAt 2 10).cfg.txCap) ∧
      ((eventsAt 2 15).issuer ≠ some .interrupt ∧ (eventsAt 2 15).slot = 2 ∧ (eventsAt 2 15).cfg.wf = true ∧
        exec .evdrain { eventsAt 2 15 with profile := .direct } = .fault (.txOvf 0x5C 15 0)) :=
  ⟨by decide, by decide, by decide, by decide, rfl⟩

theorem witness_LoopstepAtPressConsumesAndSteps : (scheduledAt 3).issuer ≠ some .interrupt ∧ (scheduledAt 3).slot = 3 := by
  decide

theorem witness_LoopstepBoundsRingGrowth :
    ([0, 1, 2, 3].map fun n : Nat => (after (fun _ => ()) (exec (.loopstep true) (eventsAt (BitVec.ofNat 2 n) 9))).isSome) =
      [true, true, true, true] := by decide

/-- For WHO and ERROR, the commands that change the registers, GET, and SET then GET. -/
theorem witness_commands :
    (pushOk (ringState [] 13 0) = true ∧ occ (ringState [] 13 0) + (cfgT.whoString.length + 2) < cfgT.txCap) ∧
      (pushOk (ringState [] 12 0) = true ∧ occ (ringState [] 12 0) + 3 < cfgT.txCap) ∧
      (pushOk (ringState [] 11 0) = true ∧ occ (ringState [] 11 0) + 4 < cfgT.txCap) ∧
      (∃ s : State, pushOk s = true ∧ isStorage s.cfg s.tos = true ∧ occ s + 6 < s.cfg.txCap) ∧
      ∃ f : Byte → Byte → Byte, Instr.orSet = .orSet ∧ ∀ x y, f x y = x ||| y :=
  ⟨by decide, by decide, by decide, ⟨{ storageState with txWr := 9 }, by decide⟩, fun x y => x ||| y, rfl, fun _ _ => rfl⟩

theorem witness_CommandReplyWithoutRoomFaults :
    isCommand .set = true ∧ pushOk (ringState [] 14 0) = true ∧
      (ringState [] 14 0).cfg.txCap ≤
        occ (ringState [] 14 0) + (replyBytes (ringState [] 14 0).cfg 0 .set).length := by decide

theorem witness_TokenizerFollowsTheLengthThresholds :
    ((presented (.host 0x21)).rst = false ∧ (presented (.host 0x21)).pending = .host 0x21 :: [] ∧ (0x20 : Byte) < 0x21) ∧
      ((presented (.host 0x20)).rst = false ∧ (presented (.host 0x20)).pending = .host 0x20 :: [] ∧ (0x20 : Byte) ≤ 0x20 ∧
        (presented (.host 0x20)).tok.length = 0) ∧
      (∃ s : State, s.rst = false ∧ s.pending = .host 0x20 :: [] ∧ s.tok.length = 3) ∧
      (∃ s : State, s.rst = false ∧ s.pending = .host 0x20 :: [] ∧ s.tok = [0x31, 0x42] ∧ hexByte 0x1B = [0x31, 0x42]) ∧
      (∃ s : State, s.rst = false ∧ s.pending = .host 0x20 :: [] ∧ 4 ≤ s.tok.length ∧ resolveName? s.tok = some 0x30) ∧
      (∃ s : State, s.rst = false ∧ s.pending = .host 0x20 :: [] ∧ s.tok.length = 2 ∧ s.tok = [0x47, 0x31]) ∧
      (∃ s : State, s.rst = false ∧ s.pending = .host 0x20 :: [] ∧ 4 ≤ s.tok.length ∧ s.tok.length = 6) :=
  ⟨by decide, by decide, ⟨{ presented (.host 0x20) with tok := [0x50, 0x49, 0x4E] }, by decide⟩,
    ⟨{ presented (.host 0x20) with tok := [0x31, 0x42] }, by decide⟩,
    ⟨{ presented (.host 0x20) with tok := [0x50, 0x49, 0x4E, 0x44] }, by decide⟩,
    ⟨{ presented (.host 0x20) with tok := [0x47, 0x31] }, by decide⟩,
    ⟨{ presented (.host 0x20) with tok := [0x50, 0x4F, 0x52, 0x54, 0x42, 0x42] }, by decide⟩⟩

theorem witness_RegisterNamesResolveToTheirAddresses :
    (0x44 : Byte) ∈ [(0x41 : Byte), 0x42, 0x43, 0x44] ∧
      ([(0x50 : Byte), 0x4F, 0x52, 0x53].length ≤ 4 ∧
        [(0x50 : Byte), 0x4F, 0x52, 0x53] ∉ [[(0x50 : Byte), 0x49, 0x4E], [0x44, 0x44, 0x52], [0x50, 0x4F, 0x52, 0x54]]) ∧
      ([(0x50 : Byte), 0x49, 0x4E] ∈ [[(0x50 : Byte), 0x49, 0x4E], [0x44, 0x44, 0x52], [0x50, 0x4F, 0x52, 0x54]] ∧
        ((0x40 : Byte) < 0x41 ∨ (0x44 : Byte) < 0x40) ∧ ((0x45 : Byte) < 0x41 ∨ (0x44 : Byte) < 0x45)) ∧
      6 ≤ [(0x50 : Byte), 0x4F, 0x52, 0x54, 0x42, 0x42].length ∧
      ((0x61 : Byte) ≤ 0x61 ∧ (0x61 : Byte) ≤ 0x7A) ∧ ((0x60 : Byte) < 0x61 ∨ (0x7A : Byte) < 0x60) := by decide

theorem witness_RefusedExactlyAgainstProfileOrContext :
    exec .drain (scheduledAt 0) = .refused (.profile 0x5000 0) ∧
      exec (.tick 0xFE) { State.reset with issuer := some .main } = .refused (.profile 0x10FE 0) := ⟨rfl, rfl⟩

theorem witness_FaultsOnlyOnRingOverflow : exec .set (ringState [] 14 0) = .fault (.txOvf 0x0A 15 0) := rfl

theorem witness_NoStepIsRefusedInAnUnattributedDirectRun :
    (presented (.op none 0x5000)).profile = .direct ∧
      ∀ c w, Event.op c w ∈ (presented (.op none 0x5000)).pending → c = none :=
  ⟨rfl, fun c w h => (by simpa [presented] using h : c = none ∧ w = 0x5000).1⟩

/-- A step of a marked state. -/
theorem witness_StepsKeepMarkAndConfiguration :
    ∃ s : State, s.rsvdMark = some 0x0001 ∧ after State.rsvdMark (step s) = some (some 0x0001) :=
  ⟨{ presented (.op none 0xA000) with rsvdMark := some 0x0001 }, by decide⟩

/-- The reset state with a PUSH presented meets the invariant, and its step answers a next state. -/
theorem witness_StepsKeepTheInvariant :
    StateInv (presented (.op none 0x4041)) ∧ after State.txWr (step (presented (.op none 0x4041))) = some 1 := by
  refine ⟨⟨by decide, by decide, by decide, by decide, rfl, by decide, by decide, ?_, ?_, by decide, by decide, by decide,
    by decide, by decide⟩, by decide⟩
  · intro k hk
    simp [presented, State.reset, State.resetWith, occ] at hk
  · intro j hj
    simp [presented, State.reset, State.resetWith] at hj

theorem witness_InstructionsWriteOnlyTheStateTheyOwn :
    (after (fun _ => ()) (exec (.loopstep true) (scheduledAt 1))).isSome = true ∧
      (after (fun _ => ()) (exec (.loopstep true) (scheduledAt 3))).isSome = true := by decide

theorem witness_InterruptOperationsCommute :
    (Instr.tick 0xFE).context = some .interrupt ∧ (Instr.raise 0x1F).context = some .interrupt ∧
      (∀ a b, ¬ (Instr.tick 0xFE = .tick a ∧ Instr.raise 0x1F = .tick b)) ∧ (Instr.tick 0xFE).wf State.reset.cfg = true ∧
      (Instr.raise 0x1F).wf State.reset.cfg = true ∧ State.reset.issuer ≠ some .main :=
  ⟨by decide, by decide, fun a b h => by simp at h, by decide, by decide, by decide⟩

theorem witness_InterruptOperationsCommuteWithTheRing :
    (Instr.raise 0x01).context = some .interrupt ∧ (Instr.raise 0x01).wf State.reset.cfg = true ∧
      (∃ b, Instr.push 0x41 = .push b) ∧ State.reset.issuer = none ∧ State.reset.pwrIdx.toNat < State.reset.cfg.pwrStepsLen ∧
      (after (fun _ => ()) (performAll [.raise 0x01, .push 0x41] State.reset)).isSome = true :=
  ⟨by decide, by decide, ⟨0x41, rfl⟩, by decide, by decide, by decide⟩

theorem witness_RefusalsRecordTheWordAndTheSlot :
    ((scheduledAt 1).issuer ≠ some .interrupt ∧ mainDirectOk (scheduledAt 1) = false ∧ pushOk (scheduledAt 1) = false ∧
        isCommand .get = true) ∧
      (∃ s : State, s.issuer = some .interrupt) ∧
      (∃ s : State, s.issuer = some .main ∧ s.cfg.evMin ≤ (0x1F : Byte).toNat ∧ (0x1F : Byte).toNat ≤ s.cfg.evMax) :=
  ⟨by decide, ⟨{ State.reset with issuer := some .interrupt }, rfl⟩, { State.reset with issuer := some .main }, by decide⟩

end Sys2Proof.Tests
end

