-- ==== Sys2Proof/Proofs/Ring.lean ====
section
/-!
The ring's occupancy as a difference of integers (R25), and the obligation that states it.
-/

namespace Sys2Proof.Proofs

open Sys2Proof Sys2Proof.Machine

/-- Over the integers the occupancy is the difference of the cursors modulo the capacity (R25, R281). -/
theorem occ_intCast_eq_emod (s : State) :
    (occ s : Int) = ((s.txWr : Int) - (s.txRd : Int)) % (s.cfg.txCap : Int) := by
  have hadd : (s.txRd : Int) + occ s ≡ s.txWr [ZMOD s.cfg.txCap] := by
    exact_mod_cast Int.natCast_modEq_iff.2 (rd_add_occ s)
  have hsub : (occ s : Int) ≡ s.txWr - s.txRd [ZMOD s.cfg.txCap] := by
    simpa using hadd.sub_right (s.txRd : Int)
  calc (occ s : Int) = (occ s : Int) % s.cfg.txCap :=
        (Int.emod_eq_of_lt (Int.natCast_nonneg _) (Int.ofNat_lt.2 (occ_lt s))).symm
    _ = (s.txWr - s.txRd) % s.cfg.txCap := hsub

/-- With both cursors in range the ring is empty exactly when they are equal (R25). -/
theorem occ_eq_zero_iff_of_lt {s : State} (hw : s.txWr < s.cfg.txCap) (hr : s.txRd < s.cfg.txCap) :
    occ s = 0 ↔ s.txWr = s.txRd := by
  rw [occ_eq_zero_iff, Nat.mod_eq_of_lt hw, Nat.mod_eq_of_lt hr]

/-- Settles O27: the difference comes from `rd_add_occ` with the read cursor subtracted, which the integers allow. -/
theorem occupancyIsTheCursorDifference : Obligations.OccupancyIsTheCursorDifference := by
  intro s
  exact ⟨occ_intCast_eq_emod s, Nat.le_sub_one_of_lt (occ_lt s), occ_eq_zero_iff_of_lt⟩

end Sys2Proof.Proofs
end

