-- ==== Sys2Proof/Proofs/Hex.lean ====
section
/-!
The hex digits and the bytes of an event report (R100, R101), and the obligation that states them.
-/

namespace Sys2Proof.Proofs

open Sys2Proof Sys2Proof.Machine

/-- Values up to nine are the decimal digits (R101). -/
theorem hexDigit_of_le_nine {v : BitVec 4} (hv : v.toNat ≤ 9) : hexDigit v = BitVec.ofNat 8 (0x30 + v.toNat) := by
  have hle : v ≤ 9 := BitVec.le_def.2 hv
  rw [hexDigit, if_pos hle, BitVec.ofNat_add, BitVec.ofNat_toNat]
  rfl

/-- Values above nine are the upper-case letters (R101). -/
theorem hexDigit_of_nine_lt {v : BitVec 4} (hv : 9 < v.toNat) :
    hexDigit v = BitVec.ofNat 8 (0x41 + (v.toNat - 10)) := by
  have hnle : ¬ v ≤ 9 := fun hle => absurd (BitVec.le_def.1 hle) (Nat.not_le.2 hv)
  have hsub : v.setWidth 8 - 10 = BitVec.ofNat 8 (v.toNat - 10) := by bv_omega
  rw [hexDigit, if_neg hnle, hsub, BitVec.ofNat_add]
  rfl

/-- An event report is the backslash, the two digits of the ID, CR and LF (R100). -/
theorem eventReport_eq (id : Byte) :
    eventReport id = [0x5C, hexDigit (id.extractLsb' 4 4), hexDigit (id.extractLsb' 0 4), 0x0D, 0x0A] := rfl

/-- Settles O22, by the two ranges of a nibble; the byte lists are those of the definitions. -/
theorem eventReportIsFiveBytes : Obligations.EventReportIsFiveBytes := by
  refine ⟨fun v => ?_, fun _ => rfl, eventReport_eq⟩
  split
  next hv => exact hexDigit_of_le_nine hv
  next hv => exact hexDigit_of_nine_lt (Nat.not_le.1 hv)

end Sys2Proof.Proofs
end

