-- ==== Sys2Proof/Proofs/OpWords.lean ====
section
/-!
The OP16 word of an opcode and its operand as a sum (R91), as the obligations write it.
-/

namespace Sys2Proof.Proofs

open Sys2Proof Sys2Proof.Machine

/-- An OP16 word has the opcode in its top four bits and the operand in its low byte (R91). -/
theorem toNat_opWord (opc : BitVec 4) (imm : Byte) : (opWord opc imm).toNat = opc.toNat * 0x1000 + imm.toNat := by
  have himm : imm.toNat < 2 ^ 8 := imm.isLt
  have hfield : (opc ++ (0 : BitVec 4)).toNat = opc.toNat * 2 ^ 4 := by
    rw [BitVec.toNat_append, Nat.shiftLeft_eq]
    exact Nat.or_zero _
  rw [opWord, BitVec.toNat_append, hfield, ← Nat.shiftLeft_add_eq_or_of_lt himm, Nat.shiftLeft_eq]
  omega

/-- An OP16 word is the word of its opcode plus the operand (R91). -/
theorem opWord_eq_add (opc : BitVec 4) (imm : Byte) : opWord opc imm = opWord opc 0 + imm.setWidth 16 := by
  apply BitVec.eq_of_toNat_eq
  have hopc : opc.toNat < 2 ^ 4 := opc.isLt
  have himm : imm.toNat < 2 ^ 8 := imm.isLt
  have hzero : (0 : Byte).toNat = 0 := rfl
  rw [BitVec.toNat_add, toNat_opWord, toNat_opWord, BitVec.toNat_setWidth, hzero]
  omega

end Sys2Proof.Proofs
end

