-- ==== Sys2Proof/Proofs/TxRing.lean ====
section
/-!
What PUSH and DRAIN do where the profile and the context allow them (R130 to R132), and the obligations that state it.
-/

namespace Sys2Proof.Proofs

open Sys2Proof Sys2Proof.Machine

/-- A result record does not touch what was appended to the ring. -/
theorem ringAppended_respond {s t : State} {bs : List Byte} (r : Rsp) (h : RingAppended s t bs) :
    RingAppended s (respond r t) bs := by
  obtain ⟨hwr, hnew, hold⟩ := h
  refine ⟨hwr, fun k hk => ?_, fun a ha => ?_⟩
  · rw [← hnew k hk]; exact ringRead_congr rfl rfl rfl _
  · rw [← hold a ha]; exact ringRead_congr rfl rfl rfl _

/-- One push with room for it appends its byte (R130). -/
theorem ringAppended_pushed {b : Byte} {s : State} (h : pushByte b s = .ok (pushed b s)) :
    RingAppended s (pushed b s) [b] := by
  have hall : pushAll [b] s = .ok (pushed b s) := by simp [pushAll, h]
  obtain ⟨-, happ, -⟩ := pushAll_ok_spec hall (List.cons_ne_nil _ _)
  exact happ

/-- A legal PUSH is one push with an empty result record (R130). -/
theorem exec_push_of_pushOk {b : Byte} {s : State} (h : pushOk s = true) :
    exec (.push b) s = outcomeOf ((pushByte b s).map (respond {})) := by
  change guarded (pushOk s) _ s _ = _
  rw [h, guarded_true]

/-- A legal PUSH into a ring with room completes (R130). -/
theorem exec_push_of_room {b : Byte} {s : State} (h : pushOk s = true) (hroom : occ s ≠ s.cfg.txCap - 1) :
    exec (.push b) s = .next (respond {} (pushed b s)) ∧ RingAppended s (respond {} (pushed b s)) [b] := by
  rcases pushByte_cases b s with ⟨hfull, -⟩ | ⟨-, hpush⟩
  · exact absurd hfull hroom
  · refine ⟨?_, ringAppended_respond {} (ringAppended_pushed hpush)⟩
    rw [exec_push_of_pushOk h, hpush, except_map_of_ok, outcomeOf_ok]

/-- A legal PUSH into a full ring faults (R131). -/
theorem exec_push_of_full {b : Byte} {s : State} (h : pushOk s = true) (hfull : occ s = s.cfg.txCap - 1) :
    exec (.push b) s = .fault (.txOvf b s.txWr s.txRd) := by
  rcases pushByte_cases b s with ⟨-, hpush⟩ | ⟨hroom, -⟩
  · rw [exec_push_of_pushOk h, hpush, except_map_of_error, outcomeOf_error]
  · omega

/-- Settles O28, by the two things one push can do (`pushByte_cases`). -/
theorem pushAppendsOneByte : Obligations.PushAppendsOneByte := by
  intro b s
  refine ⟨congrArg Code.op16 (opWord_eq_add 0x4 b), fun hok hroom => ?_, exec_push_of_full⟩
  obtain ⟨hexec, happ⟩ := exec_push_of_room (b := b) hok hroom
  exact ⟨_, hexec, happ, rfl⟩

/-- A legal DRAIN performs its body (R132). -/
theorem exec_drain_of_mainDirectOk {s : State} (h : mainDirectOk s = true) : exec .drain s = .next (drainBody s) := by
  change guarded (mainDirectOk s) _ s _ = _
  rw [h, guarded_true]

/-- `data[k]` of a DRAIN of `n` bytes is its byte number `k` (R99). -/
theorem drainData_getElem (s : State) (n k : Nat) (hk : k < 8) : (drainData s n)[k] = drainByte s n k := by
  interval_cases k <;> rfl

/-- A byte pulled is the ring's, so many places after the read cursor (R132). -/
theorem drainByte_of_lt (s : State) {n k : Nat} (hk : k < n) :
    drainByte s n k = ringRead s ((s.txRd + k) % s.cfg.txCap) := if_pos hk

/-- The outputs of a DRAIN (R132). -/
theorem drainBody_out (s : State) :
    (drainBody s).out =
      { rsp := { n := BitVec.ofNat 4 (drainCount s), was8 := was8Flag (drainCount s), data := drainData s (drainCount s) }
        txChunk := some ((List.range (drainCount s)).map (drainByte s (drainCount s))) } := rfl

/-- The chunk of a DRAIN read off the ring: only unread bytes are in it (R132). -/
theorem drainBody_txChunk_eq_ringRead (s : State) :
    (drainBody s).out.txChunk =
      some ((List.range (drainCount s)).map fun k => ringRead s ((s.txRd + k) % s.cfg.txCap)) := by
  rw [drainBody_out]
  exact congrArg some (List.map_congr_left fun k hk => drainByte_of_lt s (List.mem_range.1 hk))

/-- The count of a DRAIN fits the result's `n` (R99): it is at most eight. -/
theorem toNat_drainBody_n (s : State) : (drainBody s).out.rsp.n.toNat = drainCount s := by
  have hle := (drainCount_le s).1
  rw [drainBody_out, BitVec.toNat_ofNat]
  exact Nat.mod_eq_of_lt (by omega)

/-- Settles O29: the next state is `drainBody s` with `n` its `drainCount s`, and each clause is one of its fields. -/
theorem drainPullsUpToEightBytes : Obligations.DrainPullsUpToEightBytes := by
  refine ⟨rfl, fun s hok => ⟨drainBody s, drainCount s, rfl, exec_drain_of_mainDirectOk hok, drainBody_txRd s,
    drainBody_txZlp s, toNat_drainBody_n s, congrArg (·.rsp.was8) (drainBody_out s), fun k hk8 hkn => ?_,
    drainBody_txChunk_eq_ringRead s, drainBody_out s, ringRead_congr rfl rfl rfl, rfl⟩⟩
  calc (drainData s (drainCount s))[k] = drainByte s (drainCount s) k := drainData_getElem s _ k hk8
    _ = ringRead s ((s.txRd + k) % s.cfg.txCap) := drainByte_of_lt s hkn

end Sys2Proof.Proofs
end

