-- ==== Sys2Proof/Proofs/EventLatch.lean ====
section
/-!
What RAISE and EVDRAIN do where the profile and the context allow them (R150, R151), and the obligations that state it.
-/

namespace Sys2Proof.Proofs

open Sys2Proof Sys2Proof.Machine

/-- Adding one event to a set decides that bit and keeps every other (R150). -/
theorem getLsbD_or_eventBit (ev : EventBits) (id : Byte) (k : Nat) :
    (ev ||| eventBit id).getLsbD k = (decide (k = id.toNat) || ev.getLsbD k) := by
  rw [BitVec.getLsbD_or, getLsbD_eventBit, Bool.or_comm]

/-- Removing one event from a set clears that bit and keeps every other (R151). -/
theorem getLsbD_and_not_eventBit (ev : EventBits) (id : Byte) (k : Nat) :
    (ev &&& ~~~eventBit id).getLsbD k = (ev.getLsbD k && !decide (k = id.toNat)) := by
  rw [BitVec.getLsbD_and, BitVec.getLsbD_not, getLsbD_eventBit]
  by_cases hk : k < 256
  · simp [hk]
  · rw [BitVec.getLsbD_of_ge ev k (Nat.le_of_not_lt hk), Bool.false_and, Bool.false_and]

/-- Only a declared main issuer keeps an interrupt operation from its context (R294). -/
theorem contextOk_interrupt_of_issuer_ne {s : State} (h : s.issuer ≠ some .main) : contextOk .interrupt s = true := by
  rcases hi : s.issuer with _ | _ | _
  · simp [contextOk, hi]
  · simp [contextOk, hi]
  · exact absurd hi h

/-- A RAISE in range, issued from its context, adds its event to the set (R150). -/
theorem exec_raise_of_inRange {id : Byte} {s : State} (hmin : s.cfg.evMin ≤ id.toNat) (hmax : id.toNat ≤ s.cfg.evMax)
    (hctx : contextOk .interrupt s = true) :
    exec (.raise id) s = .next (respond {} { s with evPending := s.evPending ||| eventBit id }) := by
  have hid : idInRange s.cfg id = true := by simp [idInRange, hmin, hmax]
  change (if idInRange s.cfg id then guarded (contextOk .interrupt s) _ s _ else _) = _
  rw [if_pos hid, hctx, guarded_true]

/-- Settles O20: the set it leaves is the old one with the event's bit added. -/
theorem raiseSetsOneFlag : Obligations.RaiseSetsOneFlag := by
  intro id s
  refine ⟨congrArg Code.op16 (opWord_eq_add 0x3 id), fun hmin hmax hissuer => ?_⟩
  exact ⟨_, getLsbD_or_eventBit s.evPending id,
    exec_raise_of_inRange hmin hmax (contextOk_interrupt_of_issuer_ne hissuer)⟩

/-- A legal EVDRAIN performs its body (R151). -/
theorem exec_evdrain_of_mainDirectOk {s : State} (h : mainDirectOk s = true) :
    exec .evdrain s = outcomeOf (evdrainBody s) := by
  change guarded (mainDirectOk s) _ s _ = _
  rw [h, guarded_true]

/-- EVDRAIN with nothing pending only answers (R151). -/
theorem evdrainBody_of_none {s : State} (h : lowestPending? s = none) : evdrainBody s = .ok (respond {} s) := by
  rw [evdrainBody, h]

/-- EVDRAIN with an event pending pushes its report with its flag cleared, then answers it (R151). -/
theorem evdrainBody_of_some {s : State} {j : Byte} (h : lowestPending? s = some j.toNat) :
    evdrainBody s =
      (pushAll (eventReport j) { s with evPending := s.evPending &&& ~~~eventBit j }).map
        (respond { valid := true, id := j }) := by
  rw [evdrainBody, h]
  simp only [BitVec.ofNat_toNat, BitVec.setWidth_eq]

/-- An ID that the scan finds is a byte, since it is a bit of the event set (R26). -/
theorem lowestPending?_lt {s : State} {j : Nat} (h : lowestPending? s = some j) : j < 256 := by
  obtain ⟨hpend, -, -, -⟩ := lowestPending?_some.1 h
  exact BitVec.lt_of_getLsbD hpend

/-- A sequence of pushes without room for all of it ends in `F_TXOVF`, and no push moves the read cursor (R131). -/
theorem pushAll_fault_of_no_room {bs : List Byte} {s : State} (h : s.cfg.txCap ≤ occ s + bs.length) :
    ∃ b wr, pushAll bs s = .error (.txOvf b wr s.txRd) := by
  induction bs generalizing s with
  | nil => exact absurd (occ_lt s) (Nat.not_lt.2 h)
  | cons b bs ih =>
    rw [List.length_cons] at h
    rcases pushByte_cases b s with ⟨-, hpush⟩ | ⟨hroom, hpush⟩
    · exact ⟨b, s.txWr, by rw [pushAll, hpush]⟩
    · have hrest : (pushed b s).cfg.txCap ≤ occ (pushed b s) + bs.length := by
        rw [occ_pushed hroom]
        change s.cfg.txCap ≤ _
        omega
      obtain ⟨c, wr, hall⟩ := ih hrest
      exact ⟨c, wr, by rw [pushAll, hpush]; exact hall⟩

/-- EVDRAIN with room for the report completes: the report is appended, its flag cleared, and nothing else changed
(R151). -/
theorem evdrainBody_of_room {s : State} {j : Byte} (h : lowestPending? s = some j.toNat)
    (hroom : occ s + 5 < s.cfg.txCap) :
    ∃ t, evdrainBody s = .ok t ∧ RingAppended s t (eventReport j) ∧
      t = { s with
        txBuf := t.txBuf, txWr := t.txWr, evPending := s.evPending &&& ~~~eventBit j,
        out := { rsp := { valid := true, id := j } } } := by
  obtain ⟨u, hu⟩ := pushAll_ok_of_room (bs := eventReport j)
    (s := { s with evPending := s.evPending &&& ~~~eventBit j }) hroom
  have hbody : evdrainBody s = .ok (respond { valid := true, id := j } u) := by
    rw [evdrainBody_of_some h, hu, except_map_of_ok]
  rcases evdrainBody_ok hbody with ⟨hnone, -⟩ | ⟨i, hi, -, happ, hframe⟩
  · rw [h] at hnone
    cases hnone
  · obtain rfl : j.toNat = i := Option.some.inj (h.symm.trans hi)
    rw [BitVec.ofNat_toNat, BitVec.setWidth_eq] at happ hframe
    exact ⟨_, hbody, happ, hframe⟩

/-- EVDRAIN with an event pending and no room for its report ends in `F_TXOVF` (R131, R151). -/
theorem evdrainBody_fault_of_no_room {s : State} {j : Byte} (h : lowestPending? s = some j.toNat)
    (hfull : s.cfg.txCap ≤ occ s + 5) : ∃ b wr, evdrainBody s = .error (.txOvf b wr s.txRd) := by
  obtain ⟨b, wr, hall⟩ := pushAll_fault_of_no_room (bs := eventReport j)
    (s := { s with evPending := s.evPending &&& ~~~eventBit j }) hfull
  exact ⟨b, wr, by rw [evdrainBody_of_some h, hall, except_map_of_error]⟩

/-- With some ID in range pending the scan finds one, and it is a byte (R151). -/
theorem exists_lowestPending?_of_pending {s : State} {j : Nat} (hmin : s.cfg.evMin ≤ j) (hmax : j ≤ s.cfg.evMax)
    (hpend : s.evPending.getLsbD j = true) : ∃ i : Byte, lowestPending? s = some i.toNat := by
  cases hlow : lowestPending? s with
  | none =>
    have hclear := lowestPending?_none.1 hlow j hmin hmax
    rw [hpend] at hclear
    cases hclear
  | some i =>
    refine ⟨BitVec.ofNat 8 i, ?_⟩
    rw [BitVec.toNat_ofNat, Nat.mod_eq_of_lt (lowestPending?_lt hlow)]

/-- The ring holds at least eight bytes (R6). -/
theorem eight_le_txCap_of_wf {p : Params} (h : p.wf = true) : 8 ≤ p.txCap := by
  have haw : 3 ≤ p.txAw := by
    simp only [Params.wf, Bool.and_eq_true, decide_eq_true_eq] at h
    tauto
  exact Nat.pow_le_pow_right (n := 2) (by decide) haw

/-- Settles O23, by what the scan finds and, where it finds an ID, whether the five bytes of the report fit. -/
theorem evdrainReportsTheLowestPendingEvent : Obligations.EvdrainReportsTheLowestPendingEvent := by
  refine ⟨rfl, fun s hok hwf => ?_⟩
  have hcap := eight_le_txCap_of_wf hwf
  rw [exec_evdrain_of_mainDirectOk hok]
  refine ⟨fun hidle => ?_, fun j hmin hmax hpend hleast hroom => ?_, fun j hmin hmax hpend hfull => ?_⟩
  · rw [evdrainBody_of_none (lowestPending?_none.2 hidle)]
    rfl
  · obtain ⟨t, hbody, happ, hframe⟩ :=
      evdrainBody_of_room (lowestPending?_some.2 ⟨hpend, hmin, hmax, hleast⟩) (by omega)
    have hev : t.evPending = s.evPending &&& ~~~eventBit j := congrArg State.evPending hframe
    refine ⟨t, by rw [hbody, outcomeOf_ok], happ, fun k => ?_, by rw [hev]; exact hframe⟩
    rw [hev, getLsbD_and_not_eventBit]
  · obtain ⟨i, hlow⟩ := exists_lowestPending?_of_pending hmin hmax hpend
    obtain ⟨b, wr, hbody⟩ := evdrainBody_fault_of_no_room hlow (by omega)
    exact ⟨b, wr, by rw [hbody, outcomeOf_error]⟩

end Sys2Proof.Proofs
end

