-- ==== Sys2Proof/Proofs/Debounce.lean ====
section
/-!
What TICK, PRESS and PWRSTEP do where the profile and the context allow them (R170, R176, R178), and the obligations that
state it.
-/

namespace Sys2Proof.Proofs

open Sys2Proof Sys2Proof.Machine

/-- A TICK from its context performs its body and answers an empty result record (R170). -/
theorem exec_tick_of_contextOk {raw : Byte} {s : State} (h : contextOk .interrupt s = true) :
    exec (.tick raw) s = .next (respond {} (tickBody raw s)) := by
  change guarded (contextOk .interrupt s) _ s _ = _
  rw [h, guarded_true]

/-- Settles O12: only a declared main issuer is refused, and the next state's fields are the equations of `tickBody` in
their order. -/
theorem tickComputesTheDebounceEquations : Obligations.TickComputesTheDebounceEquations := by
  intro raw s
  refine ⟨congrArg Code.op16 (opWord_eq_add 0x1 raw), fun hissuer => ?_⟩
  exact exec_tick_of_contextOk (contextOk_interrupt_of_issuer_ne hissuer)

/-- A legal PRESS performs its body (R176). -/
theorem exec_press_of_mainDirectOk {mask : Byte} {s : State} (h : mainDirectOk s = true) :
    exec (.press mask) s = .next (pressBody mask s) := by
  change guarded (mainDirectOk s) _ s _ = _
  rw [h, guarded_true]

/-- Settles O32: the lanes returned are those that `pressBody` clears. -/
theorem pressFetchesAndClears : Obligations.PressFetchesAndClears := by
  intro mask s
  exact ⟨congrArg Code.op16 (opWord_eq_add 0x7 mask), exec_press_of_mainDirectOk⟩

/-- A legal PWRSTEP moves the index to `nextIndex` and answers an empty result record (R178). -/
theorem exec_pwrstep_of_mainDirectOk {s : State} (h : mainDirectOk s = true) :
    exec .pwrstep s = .next (respond {} { s with pwrIdx := nextIndex s.cfg s.pwrIdx }) := by
  change guarded (mainDirectOk s) _ s _ = _
  rw [h, guarded_true]

/-- Settles O35: `nextIndex` is the successor modulo the table's length. -/
theorem pwrstepAdvancesTheIndex : Obligations.PwrstepAdvancesTheIndex :=
  ⟨rfl, fun _ => exec_pwrstep_of_mainDirectOk⟩

end Sys2Proof.Proofs
end

