-- ==== Sys2Proof/Proofs/Pwm.lean ====
section
/-!
What PWMOVF does where the context allows it (R200), and the obligation that states it.
-/

namespace Sys2Proof.Proofs

open Sys2Proof Sys2Proof.Machine

/-- The table read with the index in the table gives the entry and changes nothing (R76). -/
theorem readThreshold_of_getElem? {s : State} {T : Byte} (h : s.cfg.pwrSteps[s.pwrIdx.toNat]? = some T) :
    readThreshold s = (T, s) := by
  rcases readThreshold_cases s with ⟨t, ht, hread⟩ | ⟨hpast, -⟩
  · obtain rfl : t = T := Option.some.inj (ht.symm.trans h)
    exact hread
  · rw [List.getElem?_eq_none hpast] at h
    cases h

/-- The later of the two tests, that with the threshold, decides first (R200). -/
theorem pwmOutput_eq_ite (cnt T : Byte) (old : Bool) :
    pwmOutput cnt T old = if cnt = T then false else if cnt = 0 then true else old := rfl

/-- What one overflow leaves, given what the table read answered (R200). -/
theorem pwmBody_of_readThreshold {s u : State} {T : Byte} (h : readThreshold s = (T, u)) :
    pwmBody s =
      { u with
        pwmCnt := s.pwmCnt + 1
        heaterOn := pwmOutput (s.pwmCnt + 1) T s.heaterOn
        ledOn := pwmOutput (s.pwmCnt + 1) T s.ledOn } := by
  rw [pwmBody, h]

/-- A PWMOVF from its context performs its body and answers an empty result record (R200). -/
theorem exec_pwmovf_of_contextOk {s : State} (h : contextOk .interrupt s = true) :
    exec .pwmovf s = .next (respond {} (pwmBody s)) := by
  change guarded (contextOk .interrupt s) _ s _ = _
  rw [h, guarded_true]

/-- Settles O16: only a declared main issuer is refused, the table read answers `T` and changes nothing, and both outputs
are `pwmOutput` of the incremented count. -/
theorem pwmovfIncrementsAndCompares : Obligations.PwmovfIncrementsAndCompares := by
  refine ⟨rfl, fun s T hissuer hT => ?_⟩
  rw [exec_pwmovf_of_contextOk (contextOk_interrupt_of_issuer_ne hissuer),
    pwmBody_of_readThreshold (readThreshold_of_getElem? hT), pwmOutput_eq_ite, pwmOutput_eq_ite]
  rfl

end Sys2Proof.Proofs
end

