-- ==== Sys2Proof/Proofs/Interpreter.lean ====
section
/-!
What a command's reply does where the profile and the ring allow it (R231, R244), and the obligations about the commands
that reply without a register access (R225, R230).
-/

namespace Sys2Proof.Proofs

open Sys2Proof Sys2Proof.Machine

/-- Dropping the outputs of an earlier operation neither moves a cursor nor changes what the ring holds. -/
theorem ringAppended_of_clearOut {s t : State} {bs : List Byte} (h : RingAppended (clearOut s) t bs) :
    RingAppended s t bs := by
  obtain ⟨hwr, hnew, hold⟩ := h
  refine ⟨hwr, hnew, fun a ha => ?_⟩
  rw [hold a ha]
  exact ringRead_congr rfl rfl rfl a

/-- A reply with no register access before it, allowed by the profile and with room for it, appends its bytes, resets the
token buffer, and changes nothing else (R231, R244). -/
theorem reply_clearOut_of_room {bs : List Byte} {s : State} (hne : bs ≠ []) (hok : pushOk s = true)
    (hroom : occ s + bs.length < s.cfg.txCap) :
    ∃ t, reply bs (clearOut s) = .next t ∧ RingAppended s t bs ∧
      t = { s with txBuf := t.txBuf, txWr := t.txWr, tok := [], out := {} } := by
  obtain ⟨t, hreply⟩ := reply_completes (s := clearOut s) hok hroom
  obtain ⟨-, -, happ, hframe⟩ := reply_next hne hreply
  exact ⟨t, hreply, ringAppended_of_clearOut happ, hframe⟩

/-- WHO is the reply of the identification string and CR LF (R225). -/
theorem exec_who_eq_reply (s : State) : exec .who s = reply (s.cfg.whoString ++ crlf) (clearOut s) := rfl

/-- ERROR is the reply of `!` and CR LF; the character does not enter it (R230). -/
theorem exec_error_eq_reply (c : Byte) (s : State) : exec (.error c) s = reply ([0x21] ++ crlf) (clearOut s) := rfl

/-- Settles O42: the reply is not empty, since it ends with CR LF whatever the identification string. -/
theorem whoRepliesTheIdentification : Obligations.WhoRepliesTheIdentification := by
  intro s hok hroom
  have hne : s.cfg.whoString ++ crlf ≠ [] := List.append_ne_nil_of_right_ne_nil _ (List.cons_ne_nil _ _)
  have hlen : (s.cfg.whoString ++ crlf).length = s.cfg.whoString.length + 2 := List.length_append
  rw [exec_who_eq_reply]
  exact reply_clearOut_of_room hne hok (hlen ▸ hroom)

/-- Settles O47: the reply is the same three bytes for every character. -/
theorem errorRepliesBang : Obligations.ErrorRepliesBang := by
  intro c s hok hroom
  rw [exec_error_eq_reply]
  exact reply_clearOut_of_room (List.cons_ne_nil _ _) hok hroom

end Sys2Proof.Proofs
end

