-- ==== Sys2Proof/Proofs/Scheduler.lean ====
section
/-!
What NOP does, and what LOOPSTEP does at each of its four slots where the context allows it (R261 to R266), and the
obligations that state it.
-/

namespace Sys2Proof.Proofs

open Sys2Proof Sys2Proof.Machine

/-- NOP only answers an empty result record (R266). -/
theorem exec_nop_eq_respond (s : State) : exec .nop s = .next (respond {} s) := rfl

/-- Settles O11: an empty result record changes the outputs alone. -/
theorem nopChangesNoState : Obligations.NopChangesNoState := ⟨rfl, exec_nop_eq_respond⟩

/-- Only a declared interrupt issuer keeps an operation of the main context from it (R294). -/
theorem contextOk_main_of_issuer_ne {s : State} (h : s.issuer ≠ some .interrupt) : contextOk .main s = true := by
  rcases hi : s.issuer with _ | _ | _
  · simp [contextOk, hi]
  · exact absurd hi h
  · simp [contextOk, hi]

/-- The operand of LOOPSTEP is `rdy` in bit 0, widened to the word (R92). -/
theorem setWidth_rdyImm (rdy : Bool) : (rdyImm rdy).setWidth 16 = (BitVec.ofBool rdy).setWidth 16 := by
  cases rdy <;> rfl

/-- The word of LOOPSTEP is that of its opcode plus `rdy` (R91, R92). -/
theorem encode_loopstep (rdy : Bool) :
    encode (.loopstep rdy) = .op16 (0x9000 + (BitVec.ofBool rdy).setWidth 16) := by
  rw [← setWidth_rdyImm]
  exact congrArg Code.op16 (opWord_eq_add 0x9 (rdyImm rdy))

/-- A LOOPSTEP from its context performs the body of the current slot, then advances the slot (R261). -/
theorem exec_loopstep_of_issuer_ne {rdy : Bool} {s : State} (h : s.issuer ≠ some .interrupt) :
    exec (.loopstep rdy) s = outcomeOf ((slotBody rdy s).map (finishSlot s.slot)) := by
  change guarded (contextOk .main s) _ s _ = _
  rw [contextOk_main_of_issuer_ne h, guarded_true]

section SlotBody

variable {rdy : Bool} {s : State}

/-- The body at slot 0 is POLL (R262). -/
theorem slotBody_of_slot_zero (h : s.slot = 0) : slotBody rdy s = .ok (slotPoll s) := by simp [slotBody, h]

/-- The body at slot 1 is TXDRAIN (R263). -/
theorem slotBody_of_slot_one (h : s.slot = 1) : slotBody rdy s = .ok (slotTxdrain rdy s) := by simp [slotBody, h]

/-- The body at slot 2 is EVDRAIN (R264). -/
theorem slotBody_of_slot_two (h : s.slot = 2) : slotBody rdy s = slotEvdrain s := by simp [slotBody, h]

/-- The body at slot 3 is PRESS (R265). -/
theorem slotBody_of_slot_three (h : s.slot = 3) : slotBody rdy s = .ok (slotPress s) := by simp [slotBody, h]

/-- A LOOPSTEP from its context completes where the body of its slot does (R261). -/
theorem exec_loopstep_of_slotBody_ok {r : State × Bool} (hissuer : s.issuer ≠ some .interrupt)
    (hbody : slotBody rdy s = .ok r) : exec (.loopstep rdy) s = .next (finishSlot s.slot r) := by
  rw [exec_loopstep_of_issuer_ne hissuer, hbody, except_map_of_ok, outcomeOf_ok]

/-- A LOOPSTEP from its context faults where the body of its slot does (R261). -/
theorem exec_loopstep_of_slotBody_error {f : Fault} (hissuer : s.issuer ≠ some .interrupt)
    (hbody : slotBody rdy s = .error f) : exec (.loopstep rdy) s = .fault f := by
  rw [exec_loopstep_of_issuer_ne hissuer, hbody, except_map_of_error, outcomeOf_error]

end SlotBody

/-- Settles O37: POLL leaves the state as it is, so only the end of the LOOPSTEP changes anything. -/
theorem loopstepAtPollOnlyAdvances : Obligations.LoopstepAtPollOnlyAdvances := by
  intro rdy s
  refine ⟨encode_loopstep rdy, fun hissuer hslot => ?_⟩
  rw [exec_loopstep_of_slotBody_ok hissuer (slotBody_of_slot_zero hslot), hslot]
  rfl

/-- A DRAIN is due exactly when the transport is ready and a byte or a terminator is there to send (R134). -/
theorem drainDue_iff {rdy zlp : Bool} {n : Nat} : drainDue rdy n zlp = true ↔ rdy = true ∧ (0 < n ∨ zlp = true) := by
  rw [drainDue, Bool.and_eq_true, Bool.or_eq_true, decide_eq_true_iff]

/-- Slot 1 with a DRAIN due performs it (R263). -/
theorem slotTxdrain_of_due {rdy : Bool} {s : State} (h : drainDue rdy (occ s) s.txZlp = true) :
    slotTxdrain rdy s = (drainBody s, true) := if_pos h

/-- Slot 1 without a DRAIN due only answers (R263). -/
theorem slotTxdrain_of_not_due {rdy : Bool} {s : State} (h : ¬ drainDue rdy (occ s) s.txZlp = true) :
    slotTxdrain rdy s = (respond {} s, false) := if_neg h

/-- The body of DRAIN neither reads nor writes the claimed profile (R132, R270). -/
theorem drainBody_withProfile (p : Profile) (s : State) :
    drainBody { s with profile := p } = { drainBody s with profile := p } := rfl

/-- In the direct profile the context alone decides whether an operation of the main context is legal (R270). -/
theorem mainDirectOk_direct {s : State} (h : s.issuer ≠ some .interrupt) :
    mainDirectOk { s with profile := .direct } = true := by
  have hctx : contextOk .main { s with profile := .direct } = true := contextOk_main_of_issuer_ne h
  rw [mainDirectOk, hctx]
  rfl

/-- Settles O38, by whether a DRAIN is due; the DRAIN of the direct profile has the body that slot 1 performs. -/
theorem loopstepAtTxdrainDrainsWhenDue : Obligations.LoopstepAtTxdrainDrainsWhenDue := by
  intro rdy s hissuer hslot
  rw [← drainDue_iff, exec_loopstep_of_slotBody_ok hissuer (slotBody_of_slot_one hslot), hslot]
  refine ⟨fun hdue => ?_, fun hdue => ?_⟩
  · refine ⟨_, exec_drain_of_mainDirectOk (mainDirectOk_direct hissuer), ?_⟩
    rw [slotTxdrain_of_due hdue, drainBody_withProfile]
    rfl
  · rw [slotTxdrain_of_not_due hdue]
    rfl

/-- Pushes neither read nor write the claimed profile (R130, R270). -/
theorem pushAll_withProfile (p : Profile) (bs : List Byte) (s : State) :
    pushAll bs { s with profile := p } = (pushAll bs s).map fun t => { t with profile := p } := by
  induction bs generalizing s with
  | nil => rfl
  | cons b bs ih =>
    have hpush : pushByte b { s with profile := p } = (pushByte b s).map fun t => { t with profile := p } := by
      rcases pushByte_cases b s with ⟨hfull, he⟩ | ⟨hroom, he⟩
      · rw [he, except_map_of_error]
        exact if_pos hfull
      · rw [he, except_map_of_ok]
        exact if_neg (fun hfull : occ s = s.cfg.txCap - 1 => by omega)
    rw [pushAll, pushAll, hpush]
    cases pushByte b s with
    | error f => rfl
    | ok t => exact ih t

/-- The body of EVDRAIN neither reads nor writes the claimed profile (R151, R270). -/
theorem evdrainBody_withProfile (p : Profile) (s : State) :
    evdrainBody { s with profile := p } = (evdrainBody s).map fun t => { t with profile := p } := by
  have hscan : lowestPending? { s with profile := p } = lowestPending? s := rfl
  rw [evdrainBody, evdrainBody, hscan]
  cases lowestPending? s with
  | none => rfl
  | some j =>
    change (pushAll _ { { s with evPending := _ } with profile := p }).map _ =
      ((pushAll _ { s with evPending := _ }).map _).map _
    rw [pushAll_withProfile]
    cases pushAll _ _ <;> rfl

/-- The body of EVDRAIN completes when nothing is pending or the report fits (R151). -/
theorem evdrainBody_completes {s : State} (h : lowestPending? s = none ∨ occ s + 5 < s.cfg.txCap) :
    ∃ t, evdrainBody s = .ok t := by
  cases hlow : lowestPending? s with
  | none => exact ⟨_, evdrainBody_of_none hlow⟩
  | some j =>
    have hroom : occ s + 5 < s.cfg.txCap := h.resolve_left (by simp [hlow])
    have hj : (BitVec.ofNat 8 j).toNat = j := Nat.mod_eq_of_lt (lowestPending?_lt hlow)
    obtain ⟨t, hbody, -⟩ := evdrainBody_of_room (j := BitVec.ofNat 8 j) (by rw [hj, hlow]) hroom
    exact ⟨t, hbody⟩

/-- No EVDRAIN changes the claimed profile (R270). -/
theorem profile_of_evdrainBody_ok {s t : State} (h : evdrainBody s = .ok t) : t.profile = s.profile := by
  rcases evdrainBody_ok h with ⟨-, rfl⟩ | ⟨j, -, -, -, hframe⟩
  · rfl
  · rw [hframe]

/-- Slot 2 completes where the body of EVDRAIN does, with its `valid` as `did` (R264). -/
theorem slotEvdrain_of_ok {s t : State} (h : evdrainBody s = .ok t) : slotEvdrain s = .ok (t, t.out.rsp.valid) := by
  rw [slotEvdrain, h, except_map_of_ok]

/-- Slot 2 faults where the body of EVDRAIN does (R264). -/
theorem slotEvdrain_of_error {s : State} {f : Fault} (h : evdrainBody s = .error f) : slotEvdrain s = .error f := by
  rw [slotEvdrain, h, except_map_of_error]

/-- An EVDRAIN of the direct profile has the outcome of the body that slot 2 performs (R264). -/
theorem exec_evdrain_direct {s : State} (h : s.issuer ≠ some .interrupt) :
    exec .evdrain { s with profile := .direct } =
      outcomeOf ((evdrainBody s).map fun t => { t with profile := .direct }) := by
  rw [exec_evdrain_of_mainDirectOk (mainDirectOk_direct h), evdrainBody_withProfile]

/-- Settles O39, by what the body of EVDRAIN answers: the EVDRAIN of the direct profile and slot 2 answer alike. -/
theorem loopstepAtEvdrainReportsOneEvent : Obligations.LoopstepAtEvdrainReportsOneEvent := by
  intro rdy s hissuer hslot _
  have hslotBody : slotBody rdy s = slotEvdrain s := slotBody_of_slot_two hslot
  rw [exec_evdrain_direct hissuer]
  refine ⟨fun hready => ?_, fun f hfault => ?_⟩
  · obtain ⟨t, hbody⟩ := evdrainBody_completes (hready.imp_left lowestPending?_none.2)
    rw [hbody, except_map_of_ok, outcomeOf_ok]
    refine ⟨_, rfl, ?_⟩
    rw [exec_loopstep_of_slotBody_ok hissuer (hslotBody.trans (slotEvdrain_of_ok hbody)), hslot,
      ← profile_of_evdrainBody_ok hbody]
    rfl
  · cases hbody : evdrainBody s with
    | ok t => simp [hbody] at hfault
    | error g =>
      obtain rfl : g = f := by simpa [hbody] using hfault
      exact exec_loopstep_of_slotBody_error hissuer (hslotBody.trans (slotEvdrain_of_error hbody))

/-- Slot 3 with no selected lane pending is a PRESS that returns nothing (R265). -/
theorem slotPress_of_none {s : State} (h : s.press &&& s.cfg.pressMask = 0) :
    slotPress s = (pressBody s.cfg.pressMask s, false) := if_neg (not_not.2 h)

/-- Slot 3 with a selected lane pending is a PRESS and one PWRSTEP (R265). -/
theorem slotPress_of_pending {s : State} (h : s.press &&& s.cfg.pressMask ≠ 0) :
    slotPress s = ({ pressBody s.cfg.pressMask s with pwrIdx := nextIndex s.cfg s.pwrIdx }, true) := if_pos h

/-- Settles O40, by whether a lane of `PRESS_MASK` is pending. -/
theorem loopstepAtPressConsumesAndSteps : Obligations.LoopstepAtPressConsumesAndSteps := by
  intro rdy s hissuer hslot
  rw [exec_loopstep_of_slotBody_ok hissuer (slotBody_of_slot_three hslot), hslot]
  by_cases hpress : s.press &&& s.cfg.pressMask = 0
  · rw [slotPress_of_none hpress, if_pos hpress, decide_eq_true hpress]
    rfl
  · rw [slotPress_of_pending hpress, if_neg hpress, decide_eq_false hpress]
    rfl

end Sys2Proof.Proofs
end

