-- ==== Sys2Proof/Proofs/Encoding.lean ====
section
/-!
The fields of an operation word and the two decoders (R91 to R97, R222, R224), and the obligations about the encoding.
-/

namespace Sys2Proof.Proofs

open Sys2Proof Sys2Proof.Machine

section Fields

variable (w : OpWord)

theorem toNat_fieldOpc : (fieldOpc w).toNat = w.toNat / 0x1000 := by
  have hw : w.toNat < 2 ^ 16 := w.isLt
  rw [fieldOpc, BitVec.extractLsb'_toNat, Nat.shiftRight_eq_div_pow]
  omega

theorem toNat_fieldZero : (fieldZero w).toNat = w.toNat / 0x100 % 0x10 := by
  rw [fieldZero, BitVec.extractLsb'_toNat, Nat.shiftRight_eq_div_pow]

theorem toNat_fieldImm8 : (fieldImm8 w).toNat = w.toNat % 0x100 := by
  rw [fieldImm8, BitVec.extractLsb'_toNat, Nat.shiftRight_zero]

/-- Bits 7:1 of the operand are bits 7:1 of the word (R91). -/
theorem extractLsb'_fieldImm8 : (fieldImm8 w).extractLsb' 1 7 = w.extractLsb' 1 7 := by
  apply BitVec.eq_of_toNat_eq
  rw [BitVec.extractLsb'_toNat, BitVec.extractLsb'_toNat, toNat_fieldImm8, Nat.shiftRight_eq_div_pow,
    Nat.shiftRight_eq_div_pow]
  omega

variable (opc : BitVec 4) (imm : Byte)

/-- The opcode of a word made of fields (R91). -/
@[simp] theorem fieldOpc_opWord : fieldOpc (opWord opc imm) = opc := by
  have himm : imm.toNat < 2 ^ 8 := imm.isLt
  apply BitVec.eq_of_toNat_eq
  rw [toNat_fieldOpc, toNat_opWord]
  omega

/-- The zero field of a word made of fields (R91). -/
@[simp] theorem fieldZero_opWord : fieldZero (opWord opc imm) = 0 := by
  have himm : imm.toNat < 2 ^ 8 := imm.isLt
  apply BitVec.eq_of_toNat_eq
  rw [toNat_fieldZero, toNat_opWord]
  change _ = 0
  omega

/-- The operand of a word made of fields (R91). -/
@[simp] theorem fieldImm8_opWord : fieldImm8 (opWord opc imm) = imm := by
  have himm : imm.toNat < 2 ^ 8 := imm.isLt
  apply BitVec.eq_of_toNat_eq
  rw [toNat_fieldImm8, toNat_opWord]
  omega

end Fields

/-- A word whose zero field is zero is made of its opcode and its operand (R91). -/
theorem opWord_fields {w : OpWord} (h : fieldZero w = 0) : opWord (fieldOpc w) (fieldImm8 w) = w := by
  have hzero : w.toNat / 0x100 % 0x10 = 0 := by rw [← toNat_fieldZero, h]; rfl
  apply BitVec.eq_of_toNat_eq
  rw [toNat_opWord, toNat_fieldOpc, toNat_fieldImm8]
  omega

/-- Bit 0 of a word is bit 0 of its operand (R93). -/
theorem getLsbD_zero_fieldImm8 (w : OpWord) : (fieldImm8 w).getLsbD 0 = w.getLsbD 0 := by
  simp [fieldImm8]

/-- An operand with bits 7:1 zero is the one that spells its bit 0 (R93). -/
theorem eq_rdyImm_of_high_zero {imm : Byte} (h : imm.extractLsb' 1 7 = 0) : imm = rdyImm (imm.getLsbD 0) := by
  have hhigh : imm.toNat / 2 % 128 = 0 := by
    simpa [BitVec.extractLsb'_toNat, Nat.shiftRight_eq_div_pow] using congrArg BitVec.toNat h
  have himm : imm.toNat < 2 ^ 8 := imm.isLt
  have hcases : imm = 0 ∨ imm = 1 := by bv_omega
  rcases hcases with rfl | rfl <;> rfl

/-- An operation without operand decodes exactly where the operand is zero (R97 step 3). -/
theorem decodeNoOperand_ok_iff {w : OpWord} {i j : Instr} :
    decodeNoOperand w i = .ok j ↔ fieldImm8 w = 0 ∧ i = j := by
  unfold decodeNoOperand
  split <;> simp_all

/-- LOOPSTEP decodes exactly where the operand spells a `rdy`, and to that (R93, R97 step 3). -/
theorem decodeLoopstep_ok {w : OpWord} {j : Instr} (h : decodeLoopstep w = .ok j) :
    fieldImm8 w = rdyImm (w.getLsbD 0) ∧ j = .loopstep (w.getLsbD 0) := by
  unfold decodeLoopstep at h
  split at h
  next hhigh =>
    rw [← getLsbD_zero_fieldImm8 w]
    exact ⟨eq_rdyImm_of_high_zero hhigh, by simpa [eq_comm, fieldImm8] using h⟩
  next => cases h

/-- An operation without operand is reserved exactly where the operand is not zero (R95). -/
theorem decodeNoOperand_error_iff {w : OpWord} {i : Instr} :
    (∃ e, decodeNoOperand w i = .error e) ↔ fieldImm8 w ≠ 0 := by
  unfold decodeNoOperand
  split <;> simp_all

/-- LOOPSTEP is reserved exactly where bits 7:1 are not zero (R95). -/
theorem decodeLoopstep_error_iff {w : OpWord} : (∃ e, decodeLoopstep w = .error e) ↔ w.extractLsb' 1 7 ≠ 0 := by
  unfold decodeLoopstep
  rw [extractLsb'_fieldImm8]
  split <;> simp_all

section Op16

variable {w : OpWord}

/-- A word whose zero field is not zero is reserved (R95). -/
theorem decodeOp16_of_fieldZero_ne (h : fieldZero w ≠ 0) : decodeOp16 w = .error (.reservedZeroField w) := if_pos h

/-- What decodes has a zero field (R95). -/
theorem fieldZero_of_decodeOp16_ok {i : Instr} (h : decodeOp16 w = .ok i) : fieldZero w = 0 := by
  by_contra hz
  rw [decodeOp16_of_fieldZero_ne hz] at h
  cases h

/-- An operation word that decodes is the encoding of what it decodes to (R92, R97). -/
theorem encode_of_decodeOp16_ok {i : Instr} (h : decodeOp16 w = .ok i) : encode i = .op16 w := by
  have hz := fieldZero_of_decodeOp16_ok h
  have hw : ∀ {n : Nat} {imm : Byte}, (fieldOpc w).toNat = n → fieldImm8 w = imm →
      opWord (BitVec.ofNat 4 n) imm = w := by
    rintro _ _ rfl rfl
    rw [BitVec.ofNat_toNat, BitVec.setWidth_eq, opWord_fields hz]
  rw [decodeOp16, if_neg (not_not.2 hz)] at h
  split at h
  case h_1 hop | h_3 hop | h_6 hop | h_7 hop | h_9 hop =>
    obtain ⟨himm, rfl⟩ := decodeNoOperand_ok_iff.1 h
    exact congrArg Code.op16 (hw hop himm)
  case h_2 hop | h_4 hop | h_5 hop | h_8 hop =>
    cases h
    exact congrArg Code.op16 (hw hop rfl)
  case h_10 hop =>
    obtain ⟨himm, rfl⟩ := decodeLoopstep_ok h
    exact congrArg Code.op16 (hw hop himm)
  case h_11 => cases h

end Op16

/-- Settles O9: with a zero field, by the sixteen opcodes. -/
theorem reservedWordsAreExactlyThoseOfR95 : Obligations.ReservedWordsAreExactlyThoseOfR95 := by
  intro w
  change _ ↔ 10 ≤ (fieldOpc w).toNat ∨ fieldZero w ≠ 0 ∨ ((fieldOpc w).toNat ∈ _ ∧ fieldImm8 w ≠ 0) ∨
    ((fieldOpc w).toNat = 9 ∧ _)
  by_cases hz : fieldZero w = 0
  · have hlt : (fieldOpc w).toNat < 16 := (fieldOpc w).isLt
    rw [decodeOp16, if_neg (not_not.2 hz)]
    generalize (fieldOpc w).toNat = n at hlt
    interval_cases n <;> simp [decodeNoOperand_error_iff, decodeLoopstep_error_iff, hz]
  · rw [decodeOp16_of_fieldZero_ne hz]
    exact iff_of_true ⟨_, rfl⟩ (.inr (.inl hz))

/-- Settles O5, by evaluating the decoder on each word. -/
theorem sampleWordsDecode : Obligations.SampleWordsDecode := by
  unfold Obligations.SampleWordsDecode
  decide

section Chars

/-- A byte up to `0x20` spells no command (R221). -/
theorem decodeChar_of_delimiter {c : Byte} (h : c ≤ 0x20) : decodeChar c = .error (.delimiterByte c) := if_pos h

/-- A token byte that is none of the seven command characters is ERROR (R224). -/
theorem decodeChar_of_not_mem {c : Byte} (hc : 0x20 < c) (hmem : c ∉ commandChars) : decodeChar c = .ok (.error c) := by
  have hnle : ¬ c ≤ 0x20 := BitVec.not_le.2 hc
  simp only [commandChars, List.mem_cons, List.not_mem_nil, or_false, not_or] at hmem
  simp only [decodeChar, hnle, hmem, if_false]

/-- A character that decodes is the encoding of what it decodes to, and that is a command (R224). -/
theorem encode_of_decodeChar_ok {c : Byte} {i : Instr} (h : decodeChar c = .ok i) :
    encode i = .cmdChar c ∧ isCommand i = true := by
  unfold decodeChar at h
  split_ifs at h <;> cases h <;> subst_vars <;> exact ⟨rfl, rfl⟩

/-- A byte that is no lowercase letter is stored as it came (R222). -/
theorem upcase_of_not_lower {c : Byte} (h : isLower c = false) : upcase c = c := by
  refine if_neg fun ⟨hge, hle⟩ => ?_
  simp only [isLower, decide_eq_true hge, decide_eq_true hle] at h
  cases h

end Chars

/-- Settles O10: the seven characters by evaluation, the others by `decodeChar_of_not_mem`. -/
theorem tokenByteSelectsItsCommand : Obligations.TokenByteSelectsItsCommand :=
  ⟨rfl, rfl, rfl, rfl, rfl, rfl, rfl, fun _ => decodeChar_of_not_mem, fun _ => decodeChar_of_delimiter⟩

/-- The word of an operation without operand decodes by its opcode to that operation (R97 step 3). -/
theorem decodeNoOperand_opWord_zero (opc : BitVec 4) (i : Instr) : decodeNoOperand (opWord opc 0#8) i = .ok i :=
  decodeNoOperand_ok_iff.2 ⟨fieldImm8_opWord opc 0, rfl⟩

/-- The word of a LOOPSTEP decodes to it (R93, R97 step 3). -/
theorem decodeLoopstep_opWord (rdy : Bool) : decodeLoopstep (opWord 9#4 (rdyImm rdy)) = .ok (.loopstep rdy) := by
  cases rdy <;> decide

/-- Settles O7: an operation by its opcode, a command by its character, ERROR because its byte is stored as it came
and is none of the others. -/
theorem decodeOfEncodeIsTheInstruction : Obligations.DecodeOfEncodeIsTheInstruction := by
  intro p i hwf
  cases i with
  | nop | pwmovf | drain | evdrain | pwrstep =>
    simp [decode, encode, decodeOp16, decodeNoOperand_opWord_zero]
  | tick x | raise x | push x | press x => simp [decode, encode, decodeOp16]
  | loopstep rdy => simp [decode, encode, decodeOp16, decodeLoopstep_opWord]
  | who | get | set | setTwice | andSet | orSet | xorSet => rfl
  | error c =>
    obtain ⟨⟨htok, hlow⟩, hmem⟩ : (isTokenByte c = true ∧ isLower c = false) ∧ c ∉ commandChars := by
      simpa [Instr.wf] using hwf
    change decodeChar (upcase c) = _
    rw [upcase_of_not_lower hlow]
    exact decodeChar_of_not_mem (of_decide_eq_true htok) hmem

/-- Settles O8: two codes of one instruction are both its encoding. -/
theorem decodedWordsEncodeBack : Obligations.DecodedWordsEncodeBack := by
  have hword : ∀ (w : OpWord) (i : Instr), decode (.op16 w) = .ok i → encode i = .op16 w :=
    fun _ _ h => encode_of_decodeOp16_ok h
  have hchar : ∀ (c : Byte) (i : Instr), decode (.cmdChar c) = .ok i → encode i = .cmdChar (upcase c) :=
    fun _ _ h => (encode_of_decodeChar_ok h).1
  exact ⟨hword, fun w v i hw hv => Code.op16.inj ((hword w i hw).symm.trans (hword v i hv)),
    hchar, fun c d i hc hd => Code.cmdChar.inj ((hchar c i hc).symm.trans (hchar d i hd))⟩

end Sys2Proof.Proofs
end

