-- ==== Sys2Proof/Proofs/Completions.lean ====
section
/-!
All that an instruction can do, once for every instruction: the register accesses of a command before its reply, the
state an instruction that completes leaves, when it is refused, and what a fault comes from.
-/

namespace Sys2Proof.Proofs

open Sys2Proof Sys2Proof.Machine

/-- From `s` to `u` only device registers were accessed and the outputs begun afresh: what a command does before its
reply (R226 to R229, R238). -/
structure RegistersAccessed (s u : State) : Prop where
  frame : u = { s with devMem := u.devMem, fresh := u.fresh, out := u.out }
  rsp_eq : u.out.rsp = {}
  txChunk_eq : u.out.txChunk = none
  devMem_wf : Memory.wf s.devMem = true → Memory.wf u.devMem = true
  devMem_within : Memory.within s.devMem 256 = true → Memory.within u.devMem 256 = true

theorem registersAccessed_clearOut (s : State) : RegistersAccessed s (clearOut s) := ⟨rfl, rfl, rfl, id, id⟩

theorem RegistersAccessed.devRead {s u : State} (h : RegistersAccessed s u) (a : Byte) :
    RegistersAccessed s (devRead a u).2 := by
  obtain ⟨hframe, hrsp, hchunk, hwf, hwithin⟩ := h
  obtain ⟨v, -, ⟨-, -, hu⟩ | ⟨-, hu⟩⟩ := devRead_cases a u
  all_goals
    rw [hu]
    exact ⟨by rw [hframe], hrsp, hchunk, hwf, hwithin⟩

theorem RegistersAccessed.devWrite {s u : State} (h : RegistersAccessed s u) (a v : Byte) :
    RegistersAccessed s (devWrite a v u) := by
  obtain ⟨hframe, hrsp, hchunk, hwf, hwithin⟩ := h
  refine ⟨by rw [hframe]; rfl, hrsp, hchunk, fun hs => ?_, fun hs => ?_⟩
  all_goals
    rw [devWrite_devMem]
    split
  · exact Memory.wf_write _ _ (hwf hs)
  · exact hwf hs
  · exact Memory.within_write _ (hwithin hs) a.isLt
  · exact hwithin hs

/-- A command is the reply of its bytes after its register accesses (R225 to R231). -/
theorem exec_command_eq_reply {i : Instr} (s : State) (hi : isCommand i = true) :
    ∃ v u, RegistersAccessed s u ∧ exec i s = reply (replyBytes s.cfg v i) u := by
  have hstart := registersAccessed_clearOut s
  cases i with
  | who | error => exact ⟨0, _, hstart, rfl⟩
  | get => exact ⟨_, _, hstart.devRead s.tos, rfl⟩
  | set => exact ⟨0, _, hstart.devWrite s.tos s.val, rfl⟩
  | setTwice => exact ⟨0, _, (hstart.devWrite s.tos s.val).devWrite s.tos s.val2, rfl⟩
  | andSet | orSet | xorSet => exact ⟨0, _, (hstart.devRead s.tos).devWrite s.tos _, rfl⟩
  | _ => cases hi

/-- Every reply ends with CR LF, so none is empty (R231). -/
theorem replyBytes_ne_nil (p : Params) (v : Byte) (i : Instr) : replyBytes p v i ≠ [] := by
  cases i <;> simp [replyBytes, crlf]

/-- What an instruction that completes leaves, a constructor for each thing that can happen: `Completion i s t` when `i`
performed in `s` may leave `t`. -/
inductive Completion : Instr → State → State → Prop
  | nop (s) : Completion .nop s (respond {} s)
  | tick (raw s) : Completion (.tick raw) s (respond {} (tickBody raw s))
  | pwmovf (s) : Completion .pwmovf s (respond {} (pwmBody s))
  | raise (id s) (hid : idInRange s.cfg id = true) :
      Completion (.raise id) s (respond {} { s with evPending := s.evPending ||| eventBit id })
  | raiseRejected (id s) : Completion (.raise id) s (rejectWord (opWord 0x3 id) s)
  | push (b s) (hroom : occ s + 1 < s.cfg.txCap) : Completion (.push b) s (respond {} (pushed b s))
  | drain (s) : Completion .drain s (drainBody s)
  | evdrain {s t} (hbody : evdrainBody s = .ok t) : Completion .evdrain s t
  | press (mask s) : Completion (.press mask) s (pressBody mask s)
  | pwrstep (s) : Completion .pwrstep s (respond {} { s with pwrIdx := nextIndex s.cfg s.pwrIdx })
  | poll (rdy) {s} (hslot : s.slot = 0) : Completion (.loopstep rdy) s (finishSlot s.slot (respond {} s, false))
  | txdrain {rdy s} (hslot : s.slot = 1) (hdue : drainDue rdy (occ s) s.txZlp = true) :
      Completion (.loopstep rdy) s (finishSlot s.slot (drainBody s, true))
  | txidle {rdy s} (hslot : s.slot = 1) (hdue : ¬ drainDue rdy (occ s) s.txZlp = true) :
      Completion (.loopstep rdy) s (finishSlot s.slot (respond {} s, false))
  | report (rdy) {s t} (hslot : s.slot = 2) (hbody : evdrainBody s = .ok t) :
      Completion (.loopstep rdy) s (finishSlot s.slot (t, t.out.rsp.valid))
  | consume (rdy) {s} (hslot : s.slot = 3) :
      Completion (.loopstep rdy) s (finishSlot s.slot (slotPress s))
  | command {i s u t v} (hi : isCommand i = true) (hregs : RegistersAccessed s u)
      (hreply : reply (replyBytes s.cfg v i) u = .next t) : Completion i s t

/-- A guarded operation with one next state, if it completes, leaves that state. -/
theorem eq_of_guarded_next {ok : Bool} {w : OpWord} {s t u : State} (h : guarded ok w s (.next u) = .next t) :
    t = u := by
  obtain ⟨-, hnext⟩ := guarded_next h
  exact (Host.Outcome.next.inj hnext).symm

/-- There are four slots (R35). -/
theorem slot_cases (n : SlotNo) : n = 0 ∨ n = 1 ∨ n = 2 ∨ n = 3 := by
  have hlt : n.toNat < 2 ^ 2 := n.isLt
  bv_omega

/-- What a LOOPSTEP leaves, by its slot (R261). -/
theorem completion_of_slotBody {rdy : Bool} {s : State} {r : State × Bool} (h : slotBody rdy s = .ok r) :
    Completion (.loopstep rdy) s (finishSlot s.slot r) := by
  rcases slot_cases s.slot with hslot | hslot | hslot | hslot
  · rw [slotBody_of_slot_zero hslot] at h
    cases h
    exact .poll rdy hslot
  · rw [slotBody_of_slot_one hslot] at h
    cases h
    by_cases hdue : drainDue rdy (occ s) s.txZlp = true
    · rw [slotTxdrain_of_due hdue]
      exact .txdrain hslot hdue
    · rw [slotTxdrain_of_not_due hdue]
      exact .txidle hslot hdue
  · rw [slotBody_of_slot_two hslot] at h
    obtain ⟨t, hbody, rfl⟩ := except_map_ok h
    exact .report rdy hslot hbody
  · rw [slotBody_of_slot_three hslot] at h
    cases h
    exact .consume rdy hslot

/-- An instruction that completes leaves one of the states of `Completion`. -/
theorem completion_of_exec {i : Instr} {s t : State} (h : exec i s = .next t) : Completion i s t := by
  by_cases hi : isCommand i = true
  · obtain ⟨v, u, hregs, hexec⟩ := exec_command_eq_reply s hi
    exact .command hi hregs (hexec.symm.trans h)
  cases i with
  | nop => cases h; exact .nop s
  | tick raw => cases eq_of_guarded_next h; exact .tick raw s
  | pwmovf => cases eq_of_guarded_next h; exact .pwmovf s
  | raise id =>
    change (if idInRange s.cfg id then _ else _) = _ at h
    split at h
    next hid => cases eq_of_guarded_next h; exact .raise id s hid
    next => cases h; exact .raiseRejected id s
  | push b =>
    obtain ⟨-, hbody⟩ := guarded_next h
    obtain ⟨u, hpush, rfl⟩ := except_map_ok (outcomeOf_next hbody)
    rcases pushByte_cases b s with ⟨-, herr⟩ | ⟨hroom, hok⟩
    · rw [hpush] at herr; cases herr
    · rw [hpush] at hok; cases hok; exact .push b s hroom
  | drain => cases eq_of_guarded_next h; exact .drain s
  | evdrain =>
    obtain ⟨-, hbody⟩ := guarded_next h
    exact .evdrain (outcomeOf_next hbody)
  | press mask => cases eq_of_guarded_next h; exact .press mask s
  | pwrstep => cases eq_of_guarded_next h; exact .pwrstep s
  | loopstep rdy =>
    obtain ⟨-, hbody⟩ := guarded_next h
    obtain ⟨r, hslot, rfl⟩ := except_map_ok (outcomeOf_next hbody)
    exact completion_of_slotBody hslot
  | _ => exact absurd rfl hi

section Frames

variable {s t : State}

/-- All that an EVDRAIN can change: the ring, its write cursor, the flags and the outputs (R151). -/
theorem evdrainBody_frame (h : evdrainBody s = .ok t) :
    ∃ buf wr ev rsp, t = { s with txBuf := buf, txWr := wr, evPending := ev, out := { rsp := rsp } } ∧ rsp.n = 0 ∧
      rsp.was8 = false := by
  rcases evdrainBody_ok h with ⟨-, rfl⟩ | ⟨j, -, -, -, hframe⟩
  · exact ⟨_, _, _, _, rfl, rfl, rfl⟩
  · exact ⟨_, _, _, _, hframe, rfl, rfl⟩

/-- All that a command can change: the ring, its write cursor, the token buffer, the device registers, the counter of
free values and the outputs (R231, R238). -/
theorem command_frame {bs : List Byte} {u : State} (hne : bs ≠ []) (hregs : RegistersAccessed s u)
    (h : reply bs u = .next t) :
    ∃ buf wr mem n bus, t =
      { s with txBuf := buf, txWr := wr, tok := [], devMem := mem, fresh := n, out := { regBus := bus } } := by
  obtain ⟨-, -, -, hframe⟩ := reply_next hne h
  have hout : { u.out with rsp := {} } = { regBus := u.out.regBus : Outputs } := by rw [← hregs.txChunk_eq]
  rw [hout, hregs.frame] at hframe
  exact ⟨_, _, _, _, _, hframe⟩

/-- All that an overflow can change: the PWM state and the counter of free values (R200). -/
theorem pwmBody_frame (s : State) :
    ∃ T n, pwmBody s =
      { s with
        pwmCnt := s.pwmCnt + 1, heaterOn := pwmOutput (s.pwmCnt + 1) T s.heaterOn,
        ledOn := pwmOutput (s.pwmCnt + 1) T s.ledOn, fresh := n } := by
  rcases readThreshold_cases s with ⟨T, -, hread⟩ | ⟨-, hread⟩
  · exact ⟨T, s.fresh, pwmBody_of_readThreshold hread⟩
  · exact ⟨Config.freeByte s.fresh, s.fresh + 1, pwmBody_of_readThreshold (u := (takeFree s).2) hread⟩

/-- All that slot 3 can change: the presses, the index and the outputs (R265). -/
theorem slotPress_frame (s : State) :
    ∃ idx, (slotPress s).1 = { pressBody s.cfg.pressMask s with pwrIdx := idx } ∧
      (idx = s.pwrIdx ∨ idx = nextIndex s.cfg s.pwrIdx) := by
  by_cases hpress : s.press &&& s.cfg.pressMask = 0
  · rw [slotPress_of_none hpress]
    exact ⟨_, rfl, .inl rfl⟩
  · rw [slotPress_of_pending hpress]
    exact ⟨_, rfl, .inr rfl⟩

end Frames

end Sys2Proof.Proofs
end

