-- ==== Sys2Proof/Proofs/Ownership.lean ====
section
/-!
Which state each instruction may write (R39, R70), and the obligation that states it.
-/

namespace Sys2Proof.Proofs

open Sys2Proof Sys2Proof.Machine

/-- Settles O57, by what each instruction that completes leaves: its frame names every field it writes. -/
theorem instructionsWriteOnlyTheStateTheyOwn : Obligations.InstructionsWriteOnlyTheStateTheyOwn := by
  intro i s t h
  cases completion_of_exec h with
  | nop | tick | raise | raiseRejected | push | drain | press | pwrstep => simp [mayPush, isCommand, pushed, tickBody]
  | pwmovf =>
    obtain ⟨T, n, hbody⟩ := pwmBody_frame s
    simp [hbody, isCommand]
  | evdrain hbody =>
    obtain ⟨buf, wr, ev, rsp, rfl, -⟩ := evdrainBody_frame hbody
    simp [mayPush, isCommand]
  | poll rdy hslot => simp [hslot, isCommand]
  | txdrain hslot | txidle hslot => simp [hslot, isCommand]
  | report rdy hslot hbody =>
    obtain ⟨buf, wr, ev, rsp, rfl, -⟩ := evdrainBody_frame hbody
    simp [hslot, mayPush, isCommand]
  | consume rdy hslot =>
    obtain ⟨idx, hbody, -⟩ := slotPress_frame s
    simp [hslot, hbody, isCommand]
  | command hi hregs hreply =>
    obtain ⟨buf, wr, mem, n, bus, rfl⟩ := command_frame (replyBytes_ne_nil _ _ _) hregs hreply
    simp [hi, mayPush]

end Sys2Proof.Proofs
end

