-- ==== Sys2Proof/Proofs/Fifo.lean ====
section
/-!
The ring as a FIFO queue under every instruction (R135), and the obligations about the queue and the occupancy (R133,
R135, R271).
-/

namespace Sys2Proof.Proofs

open Sys2Proof Sys2Proof.Machine

@[simp] theorem length_ringQueue (s : State) : (ringQueue s).length = occ s := by simp [ringQueue]

/-- The queue is read off the ring, its cursors and its capacity alone (R135). -/
theorem ringQueue_congr {s t : State} (hc : t.cfg = s.cfg) (hb : t.txBuf = s.txBuf) (he : t.epoch = s.epoch)
    (hw : t.txWr = s.txWr) (hr : t.txRd = s.txRd) : ringQueue t = ringQueue s := by
  unfold ringQueue
  rw [occ_congr hc hw hr, hc, hr]
  exact List.map_congr_left fun k _ => ringRead_congr hc hb he _

/-- One push that fits appends its byte to the queue (R130, R135). -/
theorem ringQueue_pushed {b : Byte} {s : State} (h : occ s + 1 < s.cfg.txCap) :
    ringQueue (pushed b s) = ringQueue s ++ [b] := by
  rcases pushByte_cases b s with ⟨hfull, -⟩ | ⟨-, hpush⟩
  · omega
  · exact ringQueue_of_appended (ringAppended_pushed hpush) rfl rfl h

/-- What EVDRAIN does to the queue: nothing, or a report appended, as its `valid` says (R151). -/
theorem ringQueue_evdrainBody {s t : State} (h : evdrainBody s = .ok t) :
    (t.out.rsp.valid = false ∧ ringQueue t = ringQueue s) ∨
      ∃ j, t.out.rsp.valid = true ∧ ringQueue t = ringQueue s ++ eventReport j := by
  rcases evdrainBody_ok h with ⟨-, rfl⟩ | ⟨j, -, hroom, happ, hframe⟩
  · exact .inl ⟨rfl, ringQueue_congr rfl rfl rfl rfl rfl⟩
  · refine .inr ⟨BitVec.ofNat 8 j, by rw [hframe], ringQueue_of_appended happ ?_ ?_ hroom⟩
    all_goals rw [hframe]

/-- A command appends its reply to the queue (R231). -/
theorem ringQueue_command {s u t : State} {bs : List Byte} (hne : bs ≠ []) (hregs : RegistersAccessed s u)
    (h : reply bs u = .next t) : ringQueue t = ringQueue s ++ bs := by
  obtain ⟨-, hroom, happ, hframe⟩ := reply_next hne h
  have hqueue : ringQueue u = ringQueue s := by rw [hregs.frame]; exact ringQueue_congr rfl rfl rfl rfl rfl
  rw [← hqueue]
  refine ringQueue_of_appended happ ?_ ?_ hroom
  all_goals rw [hframe]

/-- No instruction changes the parameters (R6). -/
theorem cfg_of_exec {i : Instr} {s t : State} (h : exec i s = .next t) : t.cfg = s.cfg := by
  obtain ⟨-, -, -, -, -, -, -, -, -, -, -, -, -, -, -, hcfg, -⟩ := instructionsWriteOnlyTheStateTheyOwn i s t h
  exact hcfg

/-- What one instruction does to the queue: what it takes it hands over as the chunk, from the front, adding nothing;
else it may add at the tail, if it is one that pushes (R135). -/
def FifoStep (i : Instr) (s t : State) : Prop :=
  (t.out.txChunk = some ((ringQueue s).take 8) ∧ ringQueue t = (ringQueue s).drop 8) ∨
    (t.out.txChunk = none ∧ ∃ bs, ringQueue t = ringQueue s ++ bs ∧ (¬ mayPush i s → bs = []))

theorem fifoStep_of_unchanged {i : Instr} {s t : State} (hchunk : t.out.txChunk = none)
    (hqueue : ringQueue t = ringQueue s) : FifoStep i s t :=
  .inr ⟨hchunk, [], by rw [hqueue, List.append_nil], fun _ => rfl⟩

theorem fifoStep_of_appended {i : Instr} {s t : State} {bs : List Byte} (hpush : mayPush i s)
    (hchunk : t.out.txChunk = none) (hqueue : ringQueue t = ringQueue s ++ bs) : FifoStep i s t :=
  .inr ⟨hchunk, bs, hqueue, fun hno => absurd hpush hno⟩

/-- Taking `min(8, |Q|)` bytes of the queue is taking eight or all (R132). -/
theorem take_drainCount (s : State) : (ringQueue s).take (drainCount s) = (ringQueue s).take 8 := by
  rw [drainCount, ← length_ringQueue, txChunkMax, ← List.take_eq_take_min]

theorem drop_drainCount (s : State) : (ringQueue s).drop (drainCount s) = (ringQueue s).drop 8 := by
  rw [drainCount, ← length_ringQueue, txChunkMax, ← List.drop_eq_drop_min]

/-- The body of DRAIN hands over the first eight bytes of the queue, or all (R132, R135). -/
theorem drainBody_fifo (s : State) :
    (drainBody s).out.txChunk = some ((ringQueue s).take 8) ∧ ringQueue (drainBody s) = (ringQueue s).drop 8 := by
  rw [txChunk_drainBody, ringQueue_drainBody, take_drainCount, drop_drainCount]
  exact ⟨rfl, rfl⟩

/-- EVDRAIN appends its report to the queue, or nothing, and hands nothing over (R151). -/
theorem fifoStep_of_evdrainBody {i : Instr} {s t : State} (hpush : mayPush i s) (h : evdrainBody s = .ok t) :
    FifoStep i s t := by
  have hchunk : t.out.txChunk = none := by
    obtain ⟨buf, wr, ev, rsp, rfl, -⟩ := evdrainBody_frame h
    rfl
  rcases ringQueue_evdrainBody h with ⟨-, hqueue⟩ | ⟨j, -, hqueue⟩
  · exact fifoStep_of_unchanged hchunk hqueue
  · exact fifoStep_of_appended hpush hchunk hqueue

/-- The end of a LOOPSTEP changes nothing of that (R261). -/
theorem fifoStep_finishSlot {i : Instr} {s : State} {n : SlotNo} {r : State × Bool} (h : FifoStep i s r.1) :
    FifoStep i s (finishSlot n r) := h

/-- Every instruction that completes treats the ring as a queue (R135). -/
theorem fifoStep_of_exec {i : Instr} {s t : State} (h : exec i s = .next t) : FifoStep i s t := by
  cases completion_of_exec h with
  | nop | tick | raise | raiseRejected | press | pwrstep | poll | txidle =>
    exact fifoStep_of_unchanged rfl (ringQueue_congr rfl rfl rfl rfl rfl)
  | pwmovf =>
    obtain ⟨T, n, hbody⟩ := pwmBody_frame s
    rw [hbody]
    exact fifoStep_of_unchanged rfl (ringQueue_congr rfl rfl rfl rfl rfl)
  | push b s hroom =>
    exact fifoStep_of_appended (.inl ⟨b, rfl⟩) rfl
      ((ringQueue_congr rfl rfl rfl rfl rfl).trans (ringQueue_pushed hroom))
  | drain | txdrain => exact .inl (drainBody_fifo s)
  | evdrain hbody => exact fifoStep_of_evdrainBody (.inr (.inl rfl)) hbody
  | report rdy hslot hbody =>
    exact fifoStep_finishSlot (fifoStep_of_evdrainBody (.inr (.inr (.inl ⟨rdy, rfl, hslot⟩))) hbody)
  | consume rdy hslot =>
    obtain ⟨idx, hbody, -⟩ := slotPress_frame s
    refine fifoStep_finishSlot ?_
    rw [hbody]
    exact fifoStep_of_unchanged rfl (ringQueue_congr rfl rfl rfl rfl rfl)
  | command hi hregs hreply =>
    have hqueue := ringQueue_command (replyBytes_ne_nil _ _ _) hregs hreply
    refine fifoStep_of_appended (.inr (.inr (.inr hi))) ?_ hqueue
    obtain ⟨buf, wr, mem, n, bus, rfl⟩ := command_frame (replyBytes_ne_nil _ _ _) hregs hreply
    rfl

/-- Settles O31, by `fifoStep_of_exec`; that the queue stays short is `occ_lt`. -/
theorem ringImplementsAFifoQueue : Obligations.RingImplementsAFifoQueue := by
  refine ⟨fun i s t h => ⟨?_, ?_⟩, fun b s t h => ?_, fun s t h => ?_⟩
  · rw [length_ringQueue, ← cfg_of_exec h]
    exact Nat.le_sub_one_of_lt (occ_lt t)
  · rcases fifoStep_of_exec h with ⟨hchunk, hqueue⟩ | ⟨hchunk, bs, hqueue, hpush⟩
    · refine ⟨min 8 (ringQueue s).length, [], ?_, ?_, ?_, fun _ => rfl⟩
      · rw [hqueue, List.append_nil, ← List.drop_eq_drop_min]
      · simp [hchunk]
      · rintro c hc
        rw [hchunk, Option.some.injEq] at hc
        exact ⟨rfl, rfl, by rw [← hc, ← List.take_eq_take_min]⟩
    · exact ⟨0, bs, hqueue, fun _ => rfl, by simp [hchunk], hpush⟩
  · cases completion_of_exec h with
    | push _ _ hroom => exact (ringQueue_congr rfl rfl rfl rfl rfl).trans (ringQueue_pushed hroom)
    | command hi => cases hi
  · cases completion_of_exec h with
    | drain => exact (drainBody_fifo s).symm
    | command hi => cases hi

/-- Settles O30: a chunk of eight leaves the read cursor at the write cursor exactly where eight bytes were unread. -/
theorem terminatorIsOwedAfterAFullEmptyingChunk : Obligations.TerminatorIsOwedAfterAFullEmptyingChunk := by
  intro s hok hwr
  have hlt := occ_lt s
  obtain ⟨hle8, hle⟩ := drainCount_le s
  have hzlp : (drainBody s).txZlp = true ↔ drainCount s = 8 ∧ (drainBody s).txRd = s.txWr := by
    simp [zlpAfterDrain]
  have howed : (drainBody s).txZlp = true ↔ occ s = 8 := by
    rw [hzlp, drainBody_txRd]
    constructor
    · rintro ⟨hcount, hrd⟩
      rw [hcount] at hrd hle
      exact occ_unique (by omega) (by rw [hrd, Nat.mod_eq_of_lt hwr])
    · intro hocc
      have hcount : drainCount s = occ s := by rw [drainCount, hocc]; rfl
      exact ⟨hcount.trans hocc, by rw [hcount, rd_add_occ, Nat.mod_eq_of_lt hwr]⟩
  refine ⟨drainBody s, exec_drain_of_mainDirectOk hok, by rw [length_ringQueue]; exact howed, fun howes => ⟨?_, ?_⟩⟩
  · rw [(drainBody_fifo s).2, List.drop_eq_nil_iff, length_ringQueue, howed.1 howes]
  · exact (hzlp.1 howes).2

section Occupancy

variable (s : State)

@[simp] theorem occ_respond (r : Rsp) : occ (respond r s) = occ s := rfl

@[simp] theorem occ_finishSlot (n : SlotNo) (r : State × Bool) : occ (finishSlot n r) = occ r.1 := rfl

@[simp] theorem occ_slotPress : occ (slotPress s).1 = occ s := by
  obtain ⟨idx, hbody, -⟩ := slotPress_frame s
  rw [hbody]
  rfl

/-- A DRAIN that is not due has nothing to take where the transport is ready (R134). -/
theorem occ_eq_zero_of_not_due {zlp : Bool} (h : ¬ drainDue true (occ s) zlp = true) : occ s = 0 := by
  rw [drainDue_iff] at h
  by_contra hpos
  exact h ⟨rfl, .inl (Nat.pos_of_ne_zero hpos)⟩

/-- EVDRAIN leaves the occupancy, or raises it by the five bytes of a report, as its `valid` says (R151). -/
theorem occ_evdrainBody {s t : State} (h : evdrainBody s = .ok t) :
    (t.out.rsp.valid = false ∧ occ t = occ s) ∨ (t.out.rsp.valid = true ∧ occ t = occ s + 5) := by
  rcases ringQueue_evdrainBody h with ⟨hvalid, hqueue⟩ | ⟨j, hvalid, hqueue⟩
  · exact .inl ⟨hvalid, by rw [← length_ringQueue, hqueue, length_ringQueue]⟩
  · exact .inr ⟨hvalid, by rw [← length_ringQueue, hqueue, List.length_append, length_ringQueue, eventReport_eq]; rfl⟩

end Occupancy

/-- Settles O41, by what a LOOPSTEP that completes leaves at its slot. -/
theorem loopstepBoundsRingGrowth : Obligations.LoopstepBoundsRingGrowth := by
  intro rdy s t h
  cases completion_of_exec h with
  | poll _ hslot | consume _ hslot => simp [hslot]
  | txdrain hslot hdue =>
    obtain ⟨rfl, -⟩ := drainDue_iff.1 hdue
    simp [hslot, occ_drainBody, drainCount, txChunkMax]
  | txidle hslot hdue =>
    cases rdy with
    | false => simp [hslot]
    | true => simp [hslot, occ_eq_zero_of_not_due s hdue]
  | report _ hslot hbody => simpa [hslot] using occ_evdrainBody hbody
  | command hi => cases hi

end Sys2Proof.Proofs
end

