-- ==== Sys2Proof/Proofs/Refusals.lean ====
section
/-!
When an instruction is refused and when it faults (R270, R291, R294, R297), and the obligations that state it.
-/

namespace Sys2Proof.Proofs

open Sys2Proof Sys2Proof.Machine

/-- The check an instruction's issue must pass: its context, and in the scheduled profile its turn (R270, R294). -/
def issueOk (s : State) : Instr → Bool
  | .nop => true
  | .raise id => !idInRange s.cfg id || contextOk .interrupt s
  | .tick _ | .pwmovf => contextOk .interrupt s
  | .drain | .evdrain | .press _ | .pwrstep => mainDirectOk s
  | .loopstep _ => contextOk .main s
  | .push _ | .who | .get | .set | .setTwice | .andSet | .orSet | .xorSet | .error _ => pushOk s

theorem issueOk_of_isCommand {i : Instr} (s : State) (hi : isCommand i = true) : issueOk s i = pushOk s := by
  cases i with
  | who | get | set | setTwice | andSet | orSet | xorSet | error => rfl
  | _ => cases hi

section Registers

variable {s u : State}

theorem RegistersAccessed.pushOk_eq (h : RegistersAccessed s u) : pushOk u = pushOk s := by rw [h.frame]; rfl

theorem RegistersAccessed.slot_eq (h : RegistersAccessed s u) : u.slot = s.slot := by rw [h.frame]

theorem RegistersAccessed.cfg_eq (h : RegistersAccessed s u) : u.cfg = s.cfg := by rw [h.frame]

theorem RegistersAccessed.txRd_eq (h : RegistersAccessed s u) : u.txRd = s.txRd := by rw [h.frame]

theorem RegistersAccessed.occ_eq (h : RegistersAccessed s u) : occ u = occ s := by rw [h.frame]; rfl

end Registers

/-- A refused issue of a guarded operation records its word and the slot, nothing else of the state (R291). -/
theorem guarded_congr_slot {s u : State} (h : u.slot = s.slot) (ok : Bool) (w : OpWord)
    (k : Host.Outcome State Fault Refusal) : guarded ok w u k = guarded ok w s k := by
  rw [guarded, guarded, h]

/-- Every instruction is its check, then an operation that completes or faults (R297). -/
theorem exec_eq_guarded (i : Instr) (s : State) :
    ∃ w r, exec i s = guarded (issueOk s i) w s (outcomeOf r) := by
  by_cases hi : isCommand i = true
  · obtain ⟨v, u, hregs, hexec⟩ := exec_command_eq_reply s hi
    rw [hexec, issueOk_of_isCommand s hi, ← hregs.pushOk_eq]
    exact ⟨_, _, guarded_congr_slot hregs.slot_eq _ _ _⟩
  cases i with
  | nop => exact ⟨0, .ok _, rfl⟩
  | tick | pwmovf | drain | press | pwrstep => exact ⟨_, .ok _, rfl⟩
  | raise id =>
    change ∃ w r, (if idInRange s.cfg id then _ else _) = guarded (!idInRange s.cfg id || _) w s (outcomeOf r)
    cases idInRange s.cfg id with
    | true => exact ⟨_, .ok _, rfl⟩
    | false => exact ⟨0, .ok _, rfl⟩
  | push | evdrain | loopstep => exact ⟨_, _, rfl⟩
  | _ => exact absurd rfl hi

/-- Completing and faulting are no refusals. -/
theorem outcomeOf_ne_refused (r : Except Fault State) (x : Refusal) : outcomeOf r ≠ .refused x := by
  cases r <;> simp

/-- An instruction is refused exactly where its check fails (R297). -/
theorem exec_refused_iff (i : Instr) (s : State) : (∃ r, exec i s = .refused r) ↔ issueOk s i = false := by
  obtain ⟨w, r, hexec⟩ := exec_eq_guarded i s
  rw [hexec]
  cases issueOk s i with
  | false => exact iff_of_true ⟨_, rfl⟩ rfl
  | true => simp [outcomeOf_ne_refused]

/-- What a refusal records (R291). -/
theorem profile_of_exec_refused {i : Instr} {s : State} {x : Refusal} (h : exec i s = .refused x) :
    ∃ w, x = .profile w s.slot := by
  obtain ⟨w, r, hexec⟩ := exec_eq_guarded i s
  rw [hexec] at h
  cases hok : issueOk s i with
  | false =>
    rw [hok, guarded_false] at h
    exact ⟨w, (Host.Outcome.refused.inj h).symm⟩
  | true =>
    rw [hok, guarded_true] at h
    exact absurd h (outcomeOf_ne_refused r x)

section Checks

variable (s : State)

/-- The declared issuer, if any, is not of context `c`. -/
theorem contextOk_eq_false_iff (c : Context) : contextOk c s = false ↔ ∃ d, s.issuer = some d ∧ d ≠ c := by
  unfold contextOk
  cases s.issuer <;> simp

theorem mainDirectOk_eq_false_iff :
    mainDirectOk s = false ↔ contextOk .main s = false ∨ s.profile = .scheduled := by
  unfold mainDirectOk
  cases s.profile <;> simp

theorem pushOk_eq_false_iff :
    pushOk s = false ↔ contextOk .main s = false ∨ (s.profile = .scheduled ∧ s.slot ≠ 0) := by
  unfold pushOk
  cases contextOk .main s <;> cases s.profile <;> simp

end Checks

theorem idInRange_eq_wf (p : Params) (id : Byte) : idInRange p id = (Instr.raise id).wf p := rfl

/-- The check fails exactly where the issue is against the claimed profile or the declared context (R270, R294). -/
theorem issueOk_eq_false_iff (i : Instr) (s : State) : issueOk s i = false ↔ breaksProfile i s := by
  unfold breaksProfile
  cases i with
  | nop => simp [issueOk, Instr.context, isCommand]
  | raise id => simp [issueOk, Instr.context, isCommand, contextOk_eq_false_iff, idInRange_eq_wf]
  | tick | pwmovf | loopstep => simp [issueOk, Instr.context, isCommand, contextOk_eq_false_iff]
  | drain | evdrain | press | pwrstep =>
    simp [issueOk, Instr.context, isCommand, contextOk_eq_false_iff, mainDirectOk_eq_false_iff]
  | push | who | get | set | setTwice | andSet | orSet | xorSet | error =>
    simp [issueOk, Instr.context, isCommand, contextOk_eq_false_iff, pushOk_eq_false_iff]

/-- Settles O52: every refusal is a failed check. -/
theorem refusedExactlyAgainstProfileOrContext : Obligations.RefusedExactlyAgainstProfileOrContext := fun i s =>
  ⟨(exec_refused_iff i s).trans (issueOk_eq_false_iff i s), fun _ => profile_of_exec_refused⟩

/-- An operation whose check fails is refused with its word and the slot recorded (R291). -/
theorem guarded_refused {ok : Bool} {w v : OpWord} {s : State} {k : Host.Outcome State Fault Refusal} (hok : ok = false)
    (hw : w = v) : guarded ok w s k = .refused (.profile v s.slot) := by rw [hok, hw, guarded_false]

/-- A command refused records the PUSH of the first byte of its reply (log 7). -/
theorem exec_command_refused {i : Instr} {s : State} (hi : isCommand i = true) (hok : pushOk s = false) :
    ∃ v : Byte, exec i s =
      .refused (.profile (0x4000 + ((replyBytes s.cfg v i).headD 0).setWidth 16) s.slot) := by
  obtain ⟨v, u, hregs, hexec⟩ := exec_command_eq_reply s hi
  refine ⟨v, ?_⟩
  rw [hexec, ← hregs.slot_eq]
  exact guarded_refused (hregs.pushOk_eq.trans hok) (opWord_eq_add 0x4 _)

/-- A RAISE in range is checked as the other operations of the interrupt context (R297). -/
theorem exec_raise_refused {id : Byte} {s : State} (hmin : s.cfg.evMin ≤ id.toNat) (hmax : id.toNat ≤ s.cfg.evMax)
    (hctx : contextOk .interrupt s = false) :
    exec (.raise id) s = .refused (.profile (0x3000 + id.setWidth 16) s.slot) := by
  have hid : idInRange s.cfg id = true := by simp [idInRange, hmin, hmax]
  change (if idInRange s.cfg id then _ else _) = _
  rw [if_pos hid]
  exact guarded_refused hctx (opWord_eq_add 0x3 id)

/-- Settles O60: every check that can fail, by the declared issuer and the claimed profile, and the word each records.
-/
theorem refusalsRecordTheWordAndTheSlot : Obligations.RefusalsRecordTheWordAndTheSlot := by
  intro s
  refine ⟨fun hissuer => ?_, fun hissuer => ?_, fun hissuer => ?_, fun hok => ?_, fun hok => ?_⟩
  · have hctx : contextOk .main s = true := contextOk_main_of_issuer_ne hissuer
    rw [mainDirectOk, pushOk, hctx]
    cases s.profile <;> simp
  · have hctx : contextOk .main s = false := (contextOk_eq_false_iff s _).2 ⟨_, hissuer, by decide⟩
    exact ⟨(mainDirectOk_eq_false_iff s).2 (.inl hctx), (pushOk_eq_false_iff s).2 (.inl hctx), fun r =>
      guarded_refused hctx ((opWord_eq_add 0x9 _).trans (congrArg (0x9000 + ·) (setWidth_rdyImm r)))⟩
  · have hctx : contextOk .interrupt s = false := (contextOk_eq_false_iff s _).2 ⟨_, hissuer, by decide⟩
    exact ⟨fun raw => guarded_refused hctx (opWord_eq_add 0x1 raw), guarded_refused hctx rfl,
      fun id hmin hmax => exec_raise_refused hmin hmax hctx⟩
  · exact ⟨guarded_refused hok rfl, guarded_refused hok rfl, fun mask => guarded_refused hok (opWord_eq_add 0x7 mask),
      guarded_refused hok rfl⟩
  · exact ⟨fun b => guarded_refused hok (opWord_eq_add 0x4 b), fun i hi => exec_command_refused hi hok⟩

end Sys2Proof.Proofs
end

