-- ==== Sys2Proof/Proofs/Fetches.lean ====
section
/-!
All that the next presented event can do (R69, R90, R221 to R236, R330): the instruction it spells, or its own effect;
and the obligations about events that spell no instruction.
-/

namespace Sys2Proof.Proofs

open Sys2Proof Sys2Proof.Machine

section Events

variable {s : State} {q : List Event}

/-- An operation word presented while `rst` is asserted is dropped (log 12). -/
theorem fetch_op_of_rst {c : Option Context} {w : OpWord} (hrst : s.rst = true) (hp : s.pending = .op c w :: q) :
    fetch s = .done { s with pending := q } := by
  simp [fetch, hp, fetchOp, hrst]

/-- An operation word that decodes is the instruction it spells (R97). -/
theorem fetch_op_of_decode {c : Option Context} {w : OpWord} {i : Instr} (hrst : s.rst = false)
    (hp : s.pending = .op c w :: q) (hdec : decodeOp16 w = .ok i) :
    fetch s = .instr i { s with pending := q, issuer := c } := by
  simp [fetch, hp, fetchOp, hrst, hdec]

/-- A reserved word is rejected (R95). -/
theorem fetch_op_of_reserved {c : Option Context} {w : OpWord} {e : DecodeError} (hrst : s.rst = false)
    (hp : s.pending = .op c w :: q) (hdec : decodeOp16 w = .error e) :
    fetch s = .done (rejectWord w { s with pending := q }) := by
  simp [fetch, hp, fetchOp, hrst, hdec]

/-- A host byte presented while `rst` is asserted is dropped (log 12). -/
theorem fetch_host_of_rst {b : Byte} (hrst : s.rst = true) (hp : s.pending = .host b :: q) :
    fetch s = .done { s with pending := q } := by
  simp [fetch, hp, fetchHost, hrst]

/-- A delimiter is served by the length of the token (R221). -/
theorem fetch_host_of_delimiter {b : Byte} (hrst : s.rst = false) (hp : s.pending = .host b :: q) (hb : b ≤ 0x20) :
    fetch s = delimiter { s with pending := q } := by
  simp only [fetch, hp, fetchHost, hrst, isDelimiter, decide_eq_true hb, if_true]
  rfl

/-- A token byte is appended to the token (R222). -/
theorem fetch_host_of_tokenByte {b : Byte} (hrst : s.rst = false) (hp : s.pending = .host b :: q) (hb : 0x20 < b) :
    fetch s = .done (tokenByte b { s with pending := q }) := by
  have hnle : ¬ b ≤ 0x20 := BitVec.not_le.2 hb
  simp only [fetch, hp, fetchHost, hrst, isDelimiter, decide_eq_false hnle]
  rfl

/-- A level of `rst` is taken (R330). -/
theorem fetch_rst {level : Bool} (hp : s.pending = .rst level :: q) :
    fetch s = .done (rstLevel level { s with pending := q }) := by
  simp only [fetch, hp]

end Events

section Delimiter

variable {s : State}

/-- A delimiter on an empty token buffer is ignored (R223). -/
theorem delimiter_of_empty (h : s.tok = []) : delimiter s = .done s := by simp only [delimiter, h]

/-- A delimiter after three token bytes does nothing (R234). -/
theorem delimiter_of_three {a b c : Byte} (h : s.tok = [a, b, c]) : delimiter s = .done s := by simp only [delimiter, h]

/-- A delimiter after a token byte that is a command is that command (R224). -/
theorem delimiter_of_command {c : Byte} {i : Instr} (h : s.tok = [c]) (hdec : decodeChar c = .ok i) :
    delimiter s = .instr i { s with issuer := some .main } := by
  simp only [delimiter, h, hdec]

/-- A one-byte token that is no command, which the token buffer never holds, does nothing. -/
theorem delimiter_of_no_command {c : Byte} {e : DecodeError} (h : s.tok = [c]) (hdec : decodeChar c = .error e) :
    delimiter s = .done s := by
  simp only [delimiter, h, hdec]

/-- A delimiter after two token bytes is a number (R232). -/
theorem delimiter_of_two {hi lo : Byte} (h : s.tok = [hi, lo]) : delimiter s = .done (numberToken hi lo s) := by
  simp only [delimiter, h]

/-- A delimiter after four or more token bytes is a register name (R233). -/
theorem delimiter_of_four_le (h : 4 ≤ s.tok.length) : delimiter s = .done (nameToken s.tok s) := by
  rcases htok : s.tok with _ | ⟨a, _ | ⟨b, _ | ⟨c, _ | ⟨d, rest⟩⟩⟩⟩
  case cons.cons.cons.cons => simp only [delimiter, htok]
  all_goals
    rw [htok] at h
    simp at h

/-- A number with a value shifts it in (R232). -/
theorem numberToken_of_some {hi lo v : Byte} (h : tokenNumber? hi lo = some v) : numberToken hi lo s = shiftIn v s := by
  simp only [numberToken, h]

/-- A name with an address shifts it in (R233, R236). -/
theorem nameToken_of_some {tok : List Byte} {v : Byte} (h : resolveName? tok = some v) :
    nameToken tok s = shiftIn v s := by
  simp only [nameToken, h]

/-- A number shifts in its value or a free one (R232, log 16). -/
theorem numberToken_shifts (hi lo : Byte) (s : State) :
    ∃ v n, numberToken hi lo s = shiftIn v { s with fresh := n } := by
  unfold numberToken
  split
  · exact ⟨_, s.fresh, rfl⟩
  · exact ⟨_, _, rfl⟩

/-- A name shifts in its address or a free value (R233, logs 16 and 17). -/
theorem nameToken_shifts (tok : List Byte) (s : State) : ∃ v n, nameToken tok s = shiftIn v { s with fresh := n } := by
  unfold nameToken
  split
  · exact ⟨_, s.fresh, rfl⟩
  · exact ⟨_, _, rfl⟩

end Delimiter

/-- The effect of an event that spells no instruction, on the state with the event taken off the queue. -/
inductive EventEffect (s : State) : State → Prop
  | ignored : EventEffect s s
  | rejected (w) : EventEffect s (rejectWord w s)
  | tokenByte (b) (hb : 0x20 < b) : EventEffect s (tokenByte b s)
  | valueShifted (v n) : EventEffect s (shiftIn v { s with fresh := n })
  | resetHeld : EventEffect s { resetDevice s with rst := true }
  | resetReleased : EventEffect s (resetDevice s)

/-- All that a served event can be: an operation word, a command of the interpreter, or one with its own effect. -/
inductive Served (s : State) : Fetched → Prop
  | op (c w q i) (hp : s.pending = .op c w :: q) : Served s (.instr i { s with pending := q, issuer := c })
  | command (q i) (hi : isCommand i = true) : Served s (.instr i { s with pending := q, issuer := some .main })
  | effect (q t) (h : EventEffect { s with pending := q } t) : Served s (.done t)

/-- All that a delimiter can do: a command, or an effect of its own (R223, R224, R232 to R234). -/
theorem delimiter_cases (s : State) :
    (∃ i, isCommand i = true ∧ delimiter s = .instr i { s with issuer := some .main }) ∨
      ∃ t, EventEffect s t ∧ delimiter s = .done t := by
  obtain ⟨tok, htok⟩ : ∃ tok, s.tok = tok := ⟨_, rfl⟩
  rcases tok with _ | ⟨a, _ | ⟨b, _ | ⟨c, _ | ⟨d, rest⟩⟩⟩⟩
  case nil => exact .inr ⟨_, .ignored, delimiter_of_empty htok⟩
  case cons.nil =>
    cases hdec : decodeChar a with
    | ok i => exact .inl ⟨i, (encode_of_decodeChar_ok hdec).2, delimiter_of_command htok hdec⟩
    | error e => exact .inr ⟨_, .ignored, delimiter_of_no_command htok hdec⟩
  case cons.cons.nil =>
    obtain ⟨v, n, hshift⟩ := numberToken_shifts a b s
    exact .inr ⟨_, .valueShifted v n, (delimiter_of_two htok).trans (congrArg Fetched.done hshift)⟩
  case cons.cons.cons.nil => exact .inr ⟨_, .ignored, delimiter_of_three htok⟩
  case cons.cons.cons.cons =>
    obtain ⟨v, n, hshift⟩ := nameToken_shifts s.tok s
    have hlen : 4 ≤ s.tok.length := by simp [htok]
    exact .inr ⟨_, .valueShifted v n, (delimiter_of_four_le hlen).trans (congrArg Fetched.done hshift)⟩

/-- A level of `rst` resets the device or does nothing (R330). -/
theorem eventEffect_rstLevel (level : Bool) (s : State) : EventEffect s (rstLevel level s) := by
  unfold rstLevel
  split_ifs
  · exact .resetHeld
  · exact .resetReleased
  · exact .ignored

/-- Whatever is presented next is served so (R69). -/
theorem served_fetch (s : State) : Served s (fetch s) := by
  rcases hp : s.pending with _ | ⟨⟨c, w⟩ | b | level, q⟩
  case nil =>
    have hfetch : fetch s = .done s := by simp only [fetch, hp]
    rw [hfetch]
    exact .effect s.pending s .ignored
  case cons.op =>
    cases hrst : s.rst with
    | true =>
      rw [fetch_op_of_rst hrst hp]
      exact .effect q _ .ignored
    | false =>
      cases hdec : decodeOp16 w with
      | ok i =>
        rw [fetch_op_of_decode hrst hp hdec]
        exact .op c w q i hp
      | error e =>
        rw [fetch_op_of_reserved hrst hp hdec]
        exact .effect q _ (.rejected w)
  case cons.host =>
    cases hrst : s.rst with
    | true =>
      rw [fetch_host_of_rst hrst hp]
      exact .effect q _ .ignored
    | false =>
      by_cases hb : b ≤ 0x20
      · rw [fetch_host_of_delimiter hrst hp hb]
        rcases delimiter_cases { s with pending := q } with ⟨i, hi, hdelim⟩ | ⟨t, heffect, hdelim⟩
        · rw [hdelim]
          exact .command q i hi
        · rw [hdelim]
          exact .effect q t heffect
      · rw [fetch_host_of_tokenByte hrst hp (BitVec.not_le.1 hb)]
        exact .effect q _ (.tokenByte b (BitVec.not_le.1 hb))
  case cons.rst =>
    rw [fetch_rst hp]
    exact .effect q _ (eventEffect_rstLevel level _)

/-- The commands belong to the main context (R220). -/
theorem context_of_isCommand {i : Instr} (h : isCommand i = true) : i.context = some .main := by
  cases i with
  | who | get | set | setTwice | andSet | orSet | xorSet | error => rfl
  | _ => cases h

/-- What the decoder answers, kept as an option. -/
theorem except_of_toOption {r : Except DecodeError Instr} {i : Instr} (h : r.toOption = some i) : r = .ok i := by
  cases r with
  | error e => cases h
  | ok j => exact congrArg Except.ok (Option.some.inj h)

/-- A 16-bit instruction of the table is an operation word (R91). -/
theorem decodeOp16_of_decodeTableWord {w : Nat} {i : Instr} (h : decodeTableWord 16 w = some i) :
    decodeOp16 (BitVec.ofNat 16 w) = .ok i := by
  unfold decodeTableWord at h
  split at h
  · exact except_of_toOption h
  · cases h

/-- An 8-bit instruction of the table is a command character, normalised (R222, R224). -/
theorem decodeChar_of_decodeTableWord {w : Nat} {i : Instr} (h : decodeTableWord 8 w = some i) :
    decodeChar (upcase (BitVec.ofNat 8 w)) = .ok i := by
  unfold decodeTableWord at h
  split at h
  · exact except_of_toOption h
  · cases h

/-- A step performs the instruction fetched (R5). -/
theorem step_of_fetch_instr {s t : State} {i : Instr} (h : fetch s = .instr i t) : step s = exec i t := by
  simp only [step, h]

/-- A step takes the effect of an event that spells no instruction (R5). -/
theorem step_of_fetch_done {s t : State} (h : fetch s = .done t) : step s = .next t := by simp only [step, h]

/-- No event that spells no instruction clears the sticky mark or changes the parameters or the claimed profile (log
13). -/
theorem eventEffect_keeps {s t : State} (h : EventEffect s t) :
    (∀ w, s.rsvdMark = some w → t.rsvdMark = some w) ∧ t.cfg = s.cfg ∧ t.profile = s.profile := by
  cases h with
  | rejected v => exact ⟨fun w hw => by rw [rejectWord_rsvdMark, hw]; rfl, rfl, rfl⟩
  | ignored | tokenByte | valueShifted | resetHeld | resetReleased => exact ⟨fun _ hw => hw, rfl, rfl⟩

/-- No instruction clears the sticky mark (R291). -/
theorem rsvdMark_of_exec {i : Instr} {s t : State} {w : OpWord} (h : exec i s = .next t) (hw : s.rsvdMark = some w) :
    t.rsvdMark = some w := by
  cases completion_of_exec h with
  | raiseRejected id => rw [rejectWord_rsvdMark, hw]; rfl
  | pwmovf =>
    obtain ⟨T, n, hbody⟩ := pwmBody_frame s
    rw [hbody]
    exact hw
  | evdrain hbody | report _ _ hbody =>
    obtain ⟨buf, wr, ev, rsp, rfl, -⟩ := evdrainBody_frame hbody
    exact hw
  | consume _ _ =>
    obtain ⟨idx, hbody, -⟩ := slotPress_frame s
    rw [finishSlot_rsvdMark, hbody]
    exact hw
  | command _ hregs hreply =>
    obtain ⟨buf, wr, mem, n, bus, rfl⟩ := command_frame (replyBytes_ne_nil _ _ _) hregs hreply
    exact hw
  | _ => exact hw

/-- No instruction changes the claimed profile (R270). -/
theorem profile_of_exec {i : Instr} {s t : State} (h : exec i s = .next t) : t.profile = s.profile := by
  obtain ⟨-, -, -, -, -, -, -, -, -, -, -, -, -, -, -, -, hprofile, -⟩ := instructionsWriteOnlyTheStateTheyOwn i s t h
  exact hprofile

/-- Settles O55, by what the step serves: an instruction in a state with the same mark, parameters and profile, or an
event of its own effect. -/
theorem stepsKeepMarkAndConfiguration : Obligations.StepsKeepMarkAndConfiguration := by
  intro s t h
  have hserved := served_fetch s
  generalize hfetch : fetch s = f at hserved
  cases hserved with
  | op | command =>
    have hexec := (step_of_fetch_instr hfetch).symm.trans h
    have hcfg := cfg_of_exec hexec
    have hprofile := profile_of_exec hexec
    exact ⟨fun w hw => rsvdMark_of_exec hexec hw, hcfg, hprofile⟩
  | effect q u heffect =>
    obtain rfl := Host.Outcome.next.inj ((step_of_fetch_done hfetch).symm.trans h)
    have hkeeps := eventEffect_keeps heffect
    exact hkeeps

/-- Settles O54: with no profile claimed only a context can be broken; no operation declares one, and a command runs
in its own. -/
theorem noStepIsRefusedInAnUnattributedDirectRun : Obligations.NoStepIsRefusedInAnUnattributedDirectRun := by
  intro s hdirect hissuers r h
  have hok : ∀ (q : List Event) (c : Option Context) (i : Instr), (c = none ∨ c = i.context) →
      exec i { s with pending := q, issuer := c } ≠ .refused r := by
    intro q c i hc hrefused
    obtain ⟨-, ⟨d, e, hd, he, hne⟩ | ⟨hsched, -⟩ | ⟨hsched, -⟩⟩ :=
      (refusedExactlyAgainstProfileOrContext i _).1.1 ⟨r, hrefused⟩
    · rcases hc with rfl | rfl
      · cases he
      · exact hne (Option.some.inj (he.symm.trans hd))
    all_goals
      rw [hdirect] at hsched
      cases hsched
  have hserved := served_fetch s
  generalize hfetch : fetch s = f at hserved
  cases hserved with
  | op c w q i hp =>
    refine hok q c i (.inl (hissuers c w ?_)) ((step_of_fetch_instr hfetch).symm.trans h)
    rw [hp]
    exact List.mem_cons_self
  | command q i hi =>
    exact hok q _ i (.inr (context_of_isCommand hi).symm) ((step_of_fetch_instr hfetch).symm.trans h)
  | effect q t heffect => cases (step_of_fetch_done hfetch).symm.trans h

/-- Settles O4: the next presented event decides what is fetched, and `withFetchWord` presents one. -/
theorem stepRunsTheDecodedInstruction : Obligations.StepRunsTheDecodedInstruction := by
  refine ⟨fun s c w q i hrst hp hdec => step_of_fetch_instr (fetch_op_of_decode hrst hp hdec),
    fun s b c q i hrst hp hb htok hdec => ?_, fun s hp => ?_, fun s w i hdec => ?_, fun s w i hdec => ?_⟩
  · exact step_of_fetch_instr ((fetch_host_of_delimiter hrst hp hb).trans (delimiter_of_command htok hdec))
  · exact step_of_fetch_done (by simp only [fetch, hp])
  · exact step_of_fetch_instr (fetch_op_of_decode (q := s.pending) rfl rfl (decodeOp16_of_decodeTableWord hdec))
  · have hspace : (0x20 : Byte) ≤ 0x20 := BitVec.le_refl _
    exact step_of_fetch_instr ((fetch_host_of_delimiter (q := s.pending) rfl rfl hspace).trans
      (delimiter_of_command rfl (decodeChar_of_decodeTableWord hdec)))

/-- A rejected word changes the outputs, and the sticky mark where it held none (R291, log 5). -/
theorem rejectWord_eq (w : OpWord) (s : State) :
    rejectWord w s =
      { s with
        out := { rsp := { err := true } }
        rsvdMark := if s.rsvdMark = none then some w else s.rsvdMark } := by
  rw [rejectWord]
  cases s.rsvdMark <;> rfl

/-- Settles O6: the sticky mark takes the word where it held none. -/
theorem reservedWordChangesNoState : Obligations.ReservedWordChangesNoState := by
  intro s c w q e hrst hp hdec
  exact (step_of_fetch_done (fetch_op_of_reserved hrst hp hdec)).trans (congrArg Host.Outcome.next (rejectWord_eq w _))

/-- Settles O21: an ID out of range is rejected before its issue is checked. -/
theorem raiseOutOfRangeChangesNoState : Obligations.RaiseOutOfRangeChangesNoState := by
  intro id s hrange
  have hid : idInRange s.cfg id = false := by
    rw [idInRange, Bool.and_eq_false_iff, decide_eq_false_iff_not, decide_eq_false_iff_not]
    omega
  change (if idInRange s.cfg id then _ else Host.Outcome.next (rejectWord (opWord 0x3 id) s)) = _
  rw [hid, opWord_eq_add, rejectWord_eq]
  rfl

/-- Settles O3: each clause is the event's own effect, and the reset values are those of `resetDevice`. -/
theorem rstHoldsAndReleasesTheBlock : Obligations.RstHoldsAndReleasesTheBlock := by
  refine ⟨fun s q hp => ⟨_, step_of_fetch_done (fetch_rst hp), rfl, rfl⟩,
    fun s c w q hrst hp => step_of_fetch_done (fetch_op_of_rst hrst hp),
    fun s b q hrst hp => step_of_fetch_done (fetch_host_of_rst hrst hp), fun s q hrst hp => ?_, fun s q hrst hp => ?_⟩
  · have hlevel : rstLevel false { s with pending := q } = { s with pending := q } :=
      if_neg (Bool.eq_false_iff.1 hrst)
    exact (step_of_fetch_done (fetch_rst hp)).trans (congrArg Host.Outcome.next hlevel)
  · have hlevel : rstLevel false { s with pending := q } = resetDevice { s with pending := q } := if_pos hrst
    exact ⟨_, (step_of_fetch_done (fetch_rst hp)).trans (congrArg Host.Outcome.next hlevel), rfl, rfl, rfl,
      fun _ => rfl, rfl, rfl, rfl, fun _ => BitVec.getLsbD_zero, rfl, rfl, rfl, rfl, rfl, rfl, rfl, rfl, rfl⟩

end Sys2Proof.Proofs
end

