-- ==== Sys2Proof/Proofs/Tokens.lean ====
section
/-!
The numbers and the names of the host protocol (R232, R236), and the obligations about the tokenizer.
-/

namespace Sys2Proof.Proofs

open Sys2Proof Sys2Proof.Machine

/-- A hex digit spells its value (R101, R232). -/
theorem hexValue?_hexDigit : ∀ v : BitVec 4, hexValue? (hexDigit v) = some v := by decide

/-- A byte is its two nibbles, the high one first (R101). -/
theorem nibbles_append (v : Byte) : v.extractLsb' 4 4 ++ v.extractLsb' 0 4 = v := by
  have hv : v.toNat < 2 ^ 8 := v.isLt
  apply BitVec.eq_of_toNat_eq
  rw [BitVec.toNat_append, BitVec.extractLsb'_toNat, BitVec.extractLsb'_toNat,
    ← Nat.shiftLeft_add_eq_or_of_lt (Nat.mod_lt _ (by decide)), Nat.shiftLeft_eq, Nat.shiftRight_eq_div_pow,
    Nat.shiftRight_zero]
  omega

/-- The two hex digits of a byte spell it (R101, R232). -/
theorem tokenNumber?_of_hexByte {hi lo v : Byte} (h : hexByte v = [hi, lo]) : tokenNumber? hi lo = some v := by
  obtain ⟨rfl, rfl⟩ : hexDigit (v.extractLsb' 4 4) = hi ∧ hexDigit (v.extractLsb' 0 4) = lo := by
    simpa [hexByte] using h
  simp only [tokenNumber?, hexValue?_hexDigit, nibbles_append]

/-- Settles O50, by the length of the token; `u` is the state with the byte taken off the queue. -/
theorem tokenizerFollowsTheLengthThresholds : Obligations.TokenizerFollowsTheLengthThresholds := by
  intro s b q hrst hp
  refine ⟨fun hb => step_of_fetch_done (fetch_host_of_tokenByte hrst hp hb), ?_⟩
  obtain ⟨u, hu⟩ : ∃ u : State, u = { s with pending := q } := ⟨_, rfl⟩
  have hserve : ∀ {t : State}, b ≤ 0x20 → delimiter u = .done t → step s = .next t := fun hb hdelim =>
    step_of_fetch_done ((fetch_host_of_delimiter hrst hp hb).trans (hu ▸ hdelim))
  have hnumber : ∀ {hi lo : Byte} {t : State}, b ≤ 0x20 → u.tok = [hi, lo] → numberToken hi lo u = t →
      step s = .next t := fun hb htok hshift =>
    hserve hb ((delimiter_of_two htok).trans (congrArg Fetched.done hshift))
  have hname : ∀ {t : State}, b ≤ 0x20 → 4 ≤ u.tok.length → nameToken u.tok u = t → step s = .next t :=
    fun hb hlen hshift => hserve hb ((delimiter_of_four_le hlen).trans (congrArg Fetched.done hshift))
  have htoku : u.tok = s.tok := by rw [hu]
  rw [← htoku]
  refine ⟨fun hb hlen => ?_, fun hi lo v hb htok hv => ?_, fun v hb hlen hv => ?_, fun hb hlen => ?_⟩
  · rw [htoku, ← hu]
    rcases hlen with hlen | hlen
    · exact hserve hb (delimiter_of_empty (List.length_eq_zero_iff.1 hlen))
    · obtain ⟨x, y, z, htok⟩ := List.length_eq_three.1 hlen
      exact hserve hb (delimiter_of_three htok)
  · rw [hnumber hb htok (numberToken_of_some (tokenNumber?_of_hexByte hv)), hu]
    rfl
  · rw [hname hb hlen (nameToken_of_some hv), hu]
    rfl
  · rcases hlen with hlen | hlen
    · obtain ⟨x, y, htok⟩ := List.length_eq_two.1 hlen
      obtain ⟨v, n, hshift⟩ := numberToken_shifts x y u
      exact ⟨v, n, by rw [hnumber hb htok hshift, hu]; rfl⟩
    · obtain ⟨v, n, hshift⟩ := nameToken_shifts u.tok u
      exact ⟨v, n, by rw [hname hb hlen hshift, hu]; rfl⟩

section Names

variable {stem : List Byte} {l : Byte}

/-- A token no longer than a name is resolved by its stem and its last byte (R236). -/
theorem resolveName?_append (h : stem.length ≤ 4) :
    resolveName? (stem ++ [l]) =
      (stemOffset? stem).elim (some 0x20) fun off =>
        if 0x41 ≤ l ∧ l ≤ 0x44 then some (0x30 + (0x44 - l) * 3 + off) else none := by
  have hlen : ¬ longestName < (stem ++ [l]).length := by
    rw [List.length_append, longestName]
    exact Nat.not_lt.2 (Nat.succ_le_succ h)
  simp only [resolveName?, if_neg hlen, List.dropLast_concat, List.getLastD_concat]
  cases stemOffset? stem <;> rfl

/-- A stem that is none of the three has no offset (R236). -/
theorem stemOffset?_of_not_mem (h : stem ∉ [[0x50, 0x49, 0x4E], [0x44, 0x44, 0x52], [0x50, 0x4F, 0x52, 0x54]]) :
    stemOffset? stem = none := by
  simp only [List.mem_cons, List.not_mem_nil, or_false, not_or] at h
  simp only [stemOffset?, h, if_false]

/-- A token longer than any name has no stated value (log 17). -/
theorem resolveName?_of_long {tok : List Byte} (h : 6 ≤ tok.length) : resolveName? tok = none := if_pos h

end Names

/-- Settles O51: the names by evaluation, the other tokens by `resolveName?_append`. -/
theorem registerNamesResolveToTheirAddresses : Obligations.RegisterNamesResolveToTheirAddresses := by
  refine ⟨by decide, rfl, rfl, fun stem l hlen hstem => ?_, fun stem l hstem hl => ?_, fun _ => resolveName?_of_long,
    fun c hge hle => if_pos ⟨hge, hle⟩, fun c hc => if_neg ?_⟩
  · rw [resolveName?_append hlen, stemOffset?_of_not_mem hstem]
    rfl
  · have hl' : ¬ (0x41 ≤ l ∧ l ≤ 0x44) := by bv_omega
    have hstem' : stem.length ≤ 4 ∧ ∃ off, stemOffset? stem = some off := by
      simp only [List.mem_cons, List.not_mem_nil, or_false] at hstem
      rcases hstem with rfl | rfl | rfl <;> exact ⟨by decide, _, rfl⟩
    obtain ⟨hlen, off, hoff⟩ := hstem'
    rw [resolveName?_append hlen, hoff, Option.elim_some, if_neg hl']
  · bv_omega

end Sys2Proof.Proofs
end

