-- ==== Sys2Proof/Proofs/Invariant.lean ====
section
/-!
The invariant of every reachable state (R43): it holds after reset and every operation keeps it; and the obligations
that state it.
-/

namespace Sys2Proof.Proofs

open Sys2Proof Sys2Proof.Machine

section Reset

variable (cfg : Params)

/-- Before any PUSH every element of the ring is unwritten (R41, log 9). -/
theorem ringRead_resetWith (a : Nat) : ringRead (State.resetWith cfg) a = Config.unwrittenByte 0 (a % cfg.txCap) := rfl

/-- After reset the ring is empty (R41). -/
theorem occ_resetWith : occ (State.resetWith cfg) = 0 := (occ_eq_zero_iff _).2 rfl

end Reset

/-- Settles O1: the reset values are those of `State.resetWith`. -/
theorem resetLeavesTheValuesOfR41 : Obligations.ResetLeavesTheValuesOfR41 :=
  ⟨fun cfg => ⟨ringRead_resetWith cfg, rfl, rfl, rfl, fun _ => BitVec.getLsbD_zero, rfl, rfl, rfl, rfl, rfl,
    rfl, rfl, rfl, rfl, rfl⟩, rfl⟩

/-- The power table has at least one and at most 256 entries (R6). -/
theorem pwrStepsLen_of_wf {p : Params} (h : p.wf = true) : 1 ≤ p.pwrStepsLen ∧ p.pwrStepsLen ≤ 256 := by
  simp only [Params.wf, Bool.and_eq_true, decide_eq_true_eq] at h
  obtain ⟨⟨⟨⟨-, hmin⟩, hmax⟩, -⟩, -⟩ := h
  exact ⟨hmin, hmax⟩

/-- The reset state meets the invariant under parameters that meet their constraints (R43). -/
theorem stateInv_resetWith {cfg : Params} (h : cfg.wf = true) : StateInv (State.resetWith cfg) where
  cfg_wf := h
  txWr_lt := txCap_pos cfg
  txRd_lt := txCap_pos cfg
  pwrIdx_lt := (pwrStepsLen_of_wf h).1
  outputs_eq := rfl
  txBuf_wf := rfl
  txBuf_within := rfl
  unread_written k hk := by
    rw [occ_resetWith] at hk
    exact absurd hk (Nat.not_lt_zero k)
  events_in_range j hj := by
    rw [show (State.resetWith cfg).evPending = 0#256 from rfl, BitVec.getLsbD_zero] at hj
    cases hj
  devMem_wf := rfl
  devMem_within := rfl
  token_ok := rfl
  rsp_n_le := Nat.zero_le 8
  rsp_was8 := rfl

/-- Settles O2: `State.reset` is the reset state under CFG-T. -/
theorem resetMeetsTheInvariant : Obligations.ResetMeetsTheInvariant :=
  ⟨fun _ => stateInv_resetWith, stateInv_resetWith (by decide)⟩

/-- The invariant speaks of two fields of the result record (R99). -/
def RspOk (r : Rsp) : Prop := r.n.toNat ≤ 8 ∧ r.was8 = decide (r.n.toNat = 8)

theorem rspOk_of_n_zero {r : Rsp} (hn : r.n = 0) (hw : r.was8 = false) : RspOk r := by
  rw [RspOk, hn, hw]
  decide

section Keeps

variable {s : State}

theorem stateInv_withOut (h : StateInv s) {o : Outputs} (ho : RspOk o.rsp) : StateInv { s with out := o } :=
  { h with rsp_n_le := ho.1, rsp_was8 := ho.2 }

/-- A push that fits writes the byte that becomes unread, inside the ring (R130). -/
theorem stateInv_pushed (h : StateInv s) (b : Byte) (hroom : occ s + 1 < s.cfg.txCap) : StateInv (pushed b s) :=
  { h with
    txWr_lt := Nat.mod_lt _ (txCap_pos _)
    txBuf_wf := Memory.wf_write _ _ h.txBuf_wf
    txBuf_within := Memory.within_write _ h.txBuf_within (Nat.mod_lt _ (txCap_pos _))
    unread_written := by
      intro k hk
      rw [occ_pushed hroom] at hk
      change (Memory.read? (Memory.write s.txBuf (s.txWr % s.cfg.txCap) b) ((s.txRd + k) % s.cfg.txCap)).isSome = true
      rw [Memory.read?_write]
      split
      next => rfl
      next hne =>
        refine h.unread_written k (Nat.lt_of_le_of_ne (Nat.le_of_lt_succ hk) fun hk => hne ?_)
        rw [hk, rd_add_occ] }

/-- What every push that fits keeps, a sequence of pushes keeps. -/
theorem pushAll_preserves {P : State → Prop} (hstep : ∀ b s, occ s + 1 < s.cfg.txCap → P s → P (pushed b s))
    {bs : List Byte} {s t : State} (h : pushAll bs s = .ok t) (hs : P s) : P t := by
  induction bs generalizing s with
  | nil => cases h; exact hs
  | cons b bs ih =>
    rcases pushByte_cases b s with ⟨-, hpush⟩ | ⟨hroom, hpush⟩
    · rw [pushAll, hpush] at h
      cases h
    · rw [pushAll, hpush] at h
      exact ih h (hstep b s hroom hs)

theorem stateInv_pushAll {t : State} {bs : List Byte} (hs : StateInv s) (h : pushAll bs s = .ok t) : StateInv t :=
  pushAll_preserves (fun b _ hroom hu => stateInv_pushed hu b hroom) h hs

/-- A DRAIN leaves the rest of the unread bytes unread (R132). -/
theorem stateInv_drainBody (h : StateInv s) : StateInv (drainBody s) :=
  { h with
    txRd_lt := Nat.mod_lt _ (txCap_pos _)
    unread_written := by
      intro k hk
      obtain ⟨-, hle⟩ := drainCount_le s
      rw [occ_drainBody] at hk
      rw [drainBody_txBuf, drainBody_txRd, drainBody_cfg, Nat.mod_add_mod, Nat.add_assoc]
      exact h.unread_written _ (by omega)
    rsp_n_le := by
      rw [toNat_drainBody_n]
      exact (drainCount_le s).1
    rsp_was8 := by
      rw [toNat_drainBody_n]
      rfl }

/-- The index after a PWRSTEP is in the table (R178). -/
theorem toNat_nextIndex {p : Params} (hwf : p.wf = true) (idx : Byte) :
    (nextIndex p idx).toNat = (idx.toNat + 1) % p.pwrStepsLen := by
  obtain ⟨hmin, hmax⟩ := pwrStepsLen_of_wf hwf
  have hlt := Nat.mod_lt (idx.toNat + 1) hmin
  rw [nextIndex, BitVec.toNat_ofNat, Nat.mod_eq_of_lt (by omega)]

theorem stateInv_withNextIndex (h : StateInv s) : StateInv { s with pwrIdx := nextIndex s.cfg s.pwrIdx } :=
  { h with
    pwrIdx_lt := by
      rw [toNat_nextIndex h.cfg_wf]
      exact Nat.mod_lt _ (pwrStepsLen_of_wf h.cfg_wf).1 }

theorem stateInv_pressBody (h : StateInv s) (mask : Byte) : StateInv (pressBody mask s) :=
  { h with rsp_n_le := Nat.zero_le 8, rsp_was8 := rfl }

/-- A flag set by a RAISE is in range (R96, R150). -/
theorem stateInv_withEvent (h : StateInv s) {id : Byte} (hid : idInRange s.cfg id = true) :
    StateInv { s with evPending := s.evPending ||| eventBit id } :=
  { h with
    events_in_range := by
      intro j hj
      change (s.evPending ||| eventBit id).getLsbD j = true at hj
      rw [getLsbD_or_eventBit, Bool.or_eq_true, decide_eq_true_eq] at hj
      rcases hj with rfl | hj
      · simpa [idInRange] using hid
      · exact h.events_in_range j hj }

theorem stateInv_withoutEvent (h : StateInv s) (id : Byte) :
    StateInv { s with evPending := s.evPending &&& ~~~eventBit id } :=
  { h with
    events_in_range := by
      intro j hj
      change (s.evPending &&& ~~~eventBit id).getLsbD j = true at hj
      rw [getLsbD_and_not_eventBit, Bool.and_eq_true] at hj
      exact h.events_in_range j hj.1 }

theorem stateInv_evdrainBody {t : State} (hs : StateInv s) (h : evdrainBody s = .ok t) : StateInv t := by
  unfold evdrainBody at h
  split at h
  · cases h
    exact stateInv_withOut hs (rspOk_of_n_zero rfl rfl)
  · obtain ⟨u, hu, rfl⟩ := except_map_ok h
    exact stateInv_withOut (stateInv_pushAll (stateInv_withoutEvent hs _) hu) (rspOk_of_n_zero rfl rfl)

/-- Both outputs are set alike (R200). -/
theorem stateInv_pwmBody (h : StateInv s) : StateInv (pwmBody s) := by
  obtain ⟨T, n, hbody⟩ := pwmBody_frame s
  rw [hbody]
  exact { h with outputs_eq := by rw [h.outputs_eq] }

theorem stateInv_slotPress (h : StateInv s) : StateInv (slotPress s).1 := by
  by_cases hpress : s.press &&& s.cfg.pressMask = 0
  · rw [slotPress_of_none hpress]
    exact stateInv_pressBody h _
  · rw [slotPress_of_pending hpress]
    exact stateInv_withNextIndex (stateInv_pressBody h _)

theorem stateInv_finishSlot {r : State × Bool} (h : StateInv r.1) (n : SlotNo) : StateInv (finishSlot n r) := { h with }

theorem stateInv_command {u t : State} {bs : List Byte} (hs : StateInv s) (hregs : RegistersAccessed s u)
    (h : reply bs u = .next t) : StateInv t := by
  have hu : StateInv u := by
    have hwf := hregs.devMem_wf hs.devMem_wf
    have hwithin := hregs.devMem_within hs.devMem_within
    have hrsp : RspOk u.out.rsp := by rw [hregs.rsp_eq]; exact rspOk_of_n_zero rfl rfl
    rw [hregs.frame]
    exact { hs with devMem_wf := hwf, devMem_within := hwithin, rsp_n_le := hrsp.1, rsp_was8 := hrsp.2 }
  obtain ⟨-, hout⟩ := guarded_next h
  obtain ⟨w, hpush, rfl⟩ := except_map_ok (outcomeOf_next hout)
  exact { stateInv_pushAll hu hpush with token_ok := rfl, rsp_n_le := Nat.zero_le 8, rsp_was8 := rfl }

/-- Every instruction that completes keeps the invariant (R43). -/
theorem stateInv_exec {i : Instr} {t : State} (hs : StateInv s) (h : exec i s = .next t) : StateInv t := by
  have hzero : ∀ {r : Rsp}, r.n = 0 → r.was8 = false → RspOk r := rspOk_of_n_zero
  cases completion_of_exec h with
  | nop => exact stateInv_withOut hs (hzero rfl rfl)
  | raiseRejected => exact { hs with rsp_n_le := Nat.zero_le 8, rsp_was8 := rfl }
  | tick => exact { hs with rsp_n_le := Nat.zero_le 8, rsp_was8 := rfl }
  | pwmovf => exact stateInv_withOut (stateInv_pwmBody hs) (hzero rfl rfl)
  | raise id _ hid => exact stateInv_withOut (stateInv_withEvent hs hid) (hzero rfl rfl)
  | push b _ hroom => exact stateInv_withOut (stateInv_pushed hs b hroom) (hzero rfl rfl)
  | drain => exact stateInv_drainBody hs
  | evdrain hbody => exact stateInv_evdrainBody hs hbody
  | press mask => exact stateInv_pressBody hs mask
  | pwrstep => exact stateInv_withOut (stateInv_withNextIndex hs) (hzero rfl rfl)
  | poll | txidle => exact stateInv_finishSlot (r := (_, false)) (stateInv_withOut hs (hzero rfl rfl)) _
  | txdrain => exact stateInv_finishSlot (r := (_, true)) (stateInv_drainBody hs) _
  | report _ _ hbody => exact stateInv_finishSlot (r := (_, _)) (stateInv_evdrainBody hs hbody) _
  | consume => exact stateInv_finishSlot (stateInv_slotPress hs) _
  | command _ hregs hreply => exact stateInv_command hs hregs hreply

end Keeps

/-- A token byte is stored above `0x20` and as no lowercase letter (R221, R222). -/
theorem upcase_token {b : Byte} (hb : 0x20 < b) : isTokenByte (upcase b) = true ∧ isLower (upcase b) = false := by
  unfold isTokenByte isLower upcase
  split
  · constructor
    · rw [decide_eq_true_eq]; bv_omega
    · rw [Bool.and_eq_false_iff, decide_eq_false_iff_not]; left; bv_omega
  next hlow =>
    refine ⟨decide_eq_true hb, ?_⟩
    rw [← Bool.decide_and, decide_eq_false hlow]

/-- Every event with an effect of its own keeps the invariant (R43). -/
theorem stateInv_eventEffect {s t : State} (hs : StateInv s) (h : EventEffect s t) : StateInv t := by
  cases h with
  | ignored => exact hs
  | rejected w => exact { hs with rsp_n_le := Nat.zero_le 8, rsp_was8 := rfl }
  | tokenByte b hb =>
    obtain ⟨htok, hlow⟩ := upcase_token hb
    refine { hs with token_ok := ?_ }
    have hold := hs.token_ok
    unfold tokenBytesOk at hold ⊢
    rw [tokenByte_tok, List.all_append, hold]
    simp [htok, hlow]
  | valueShifted v n => exact { hs with token_ok := rfl }
  | resetHeld | resetReleased => exact { stateInv_resetWith hs.cfg_wf with }

/-- The invariant does not speak of the events presented nor of who issued them. -/
theorem stateInv_withPending {s : State} (hs : StateInv s) (q : List Event) (c : Option Context) :
    StateInv { s with pending := q, issuer := c } := { hs with }

/-- Settles O56, by what the step serves. -/
theorem stepsKeepTheInvariant : Obligations.StepsKeepTheInvariant := by
  intro s t hs h
  have hserved := served_fetch s
  generalize hfetch : fetch s = f at hserved
  cases hserved with
  | op | command =>
    have hexec := (step_of_fetch_instr hfetch).symm.trans h
    exact stateInv_exec (stateInv_withPending hs _ _) hexec
  | effect q u heffect =>
    obtain rfl := Host.Outcome.next.inj ((step_of_fetch_done hfetch).symm.trans h)
    exact stateInv_eventEffect (stateInv_withPending hs q s.issuer) heffect

end Sys2Proof.Proofs
end

