-- ==== Sys2Proof/Proofs/Faults.lean ====
section
/-!
What a fault comes from, pushes without room for them (R131, R291), and the obligations that state it.
-/

namespace Sys2Proof.Proofs

open Sys2Proof Sys2Proof.Machine

/-- A sequence of pushes that faults leaves the fault of a ring that holds all but one of its places (R131, R291). -/
theorem pushAll_error_spec {bs : List Byte} {s : State} {f : Fault} (h : pushAll bs s = .error f) :
    ∃ b wr, f = .txOvf b wr s.txRd ∧ ((wr : Int) - (s.txRd : Int)) % (s.cfg.txCap : Int) = (s.cfg.txCap : Int) - 1 := by
  induction bs generalizing s with
  | nil => cases h
  | cons b bs ih =>
    rcases pushByte_cases b s with ⟨hfull, hpush⟩ | ⟨hroom, hpush⟩
    · rw [pushAll, hpush] at h
      obtain rfl := Except.error.inj h
      refine ⟨b, s.txWr, rfl, ?_⟩
      rw [← occ_intCast_eq_emod, hfull, Nat.cast_sub (txCap_pos _)]
      rfl
    · rw [pushAll, hpush] at h
      exact ih (s := pushed b s) h

/-- An operation that faults after its check comes from one that faulted. -/
theorem outcomeOf_fault {r : Except Fault State} {f : Fault} (h : outcomeOf r = .fault f) : r = .error f := by
  cases r with
  | ok t => cases h
  | error g => exact congrArg Except.error (Host.Outcome.fault.inj h)

theorem except_map_error {α β : Type} {g : α → β} {r : Except Fault α} {f : Fault} (h : r.map g = .error f) :
    r = .error f := by
  cases r with
  | ok a => cases h
  | error e => exact congrArg Except.error (Except.error.inj h)

/-- A guarded operation that faults passed its check. -/
theorem guarded_fault {ok : Bool} {w : OpWord} {s : State} {f : Fault} {r : Except Fault State}
    (h : guarded ok w s (outcomeOf r) = .fault f) : r = .error f := by
  cases ok with
  | false => cases h
  | true => exact outcomeOf_fault h

/-- From `s` the fault `f` comes from pushes begun with the cursors and the parameters of `s`. -/
def FaultOfPushes (s : State) (f : Fault) : Prop :=
  ∃ bs u, pushAll bs u = .error f ∧ u.txRd = s.txRd ∧ u.cfg = s.cfg

theorem faultOfPushes_of_evdrainBody {s : State} {f : Fault} (h : evdrainBody s = .error f) : FaultOfPushes s f := by
  unfold evdrainBody at h
  split at h
  · cases h
  · exact ⟨_, _, except_map_error h, rfl, rfl⟩

/-- Every fault comes from pushes, of an instruction that pushes (R291). -/
theorem mayPush_of_exec_fault {i : Instr} {s : State} {f : Fault} (h : exec i s = .fault f) :
    mayPush i s ∧ FaultOfPushes s f := by
  by_cases hi : isCommand i = true
  · obtain ⟨v, u, hregs, hexec⟩ := exec_command_eq_reply s hi
    have hpush := except_map_error (guarded_fault (hexec.symm.trans h))
    exact ⟨.inr (.inr (.inr hi)), _, u, hpush, hregs.txRd_eq, hregs.cfg_eq⟩
  cases i with
  | nop => cases h
  | tick | pwmovf | drain | press | pwrstep => cases guarded_fault (r := .ok _) h
  | raise id =>
    change (if idInRange s.cfg id then _ else _) = _ at h
    split at h
    · cases guarded_fault (r := .ok _) h
    · cases h
  | push b =>
    have hpush := except_map_error (guarded_fault h)
    exact ⟨.inl ⟨b, rfl⟩, [b], s, by rw [pushAll, hpush], rfl, rfl⟩
  | evdrain => exact ⟨.inr (.inl rfl), faultOfPushes_of_evdrainBody (guarded_fault h)⟩
  | loopstep rdy =>
    have hbody := except_map_error (guarded_fault h)
    rcases slot_cases s.slot with hslot | hslot | hslot | hslot
    · rw [slotBody_of_slot_zero hslot] at hbody
      cases hbody
    · rw [slotBody_of_slot_one hslot] at hbody
      cases hbody
    · rw [slotBody_of_slot_two hslot] at hbody
      exact ⟨.inr (.inr (.inl ⟨rdy, rfl, hslot⟩)), faultOfPushes_of_evdrainBody (except_map_error hbody)⟩
    · rw [slotBody_of_slot_three hslot] at hbody
      cases hbody
  | _ => exact absurd rfl hi

/-- Settles O53, by the pushes the fault comes from. -/
theorem faultsOnlyOnRingOverflow : Obligations.FaultsOnlyOnRingOverflow := by
  intro i s f h
  obtain ⟨hpush, bs, u, hall, hrd, hcfg⟩ := mayPush_of_exec_fault h
  rw [← hrd, ← hcfg]
  exact ⟨hpush, pushAll_error_spec hall⟩

/-- The length of a reply does not depend on the value a GET reads (R244). -/
theorem length_replyBytes (p : Params) (v w : Byte) (i : Instr) :
    (replyBytes p v i).length = (replyBytes p w i).length := by
  cases i <;> rfl

/-- Settles O49: the register accesses before the reply move no cursor. -/
theorem commandReplyWithoutRoomFaults : Obligations.CommandReplyWithoutRoomFaults := by
  intro i s v hi hok hfull
  obtain ⟨w, u, hregs, hexec⟩ := exec_command_eq_reply s hi
  have hfull' : u.cfg.txCap ≤ occ u + (replyBytes s.cfg w i).length := by
    rw [hregs.cfg_eq, hregs.occ_eq, length_replyBytes s.cfg w v]
    exact hfull
  obtain ⟨b, wr, hall⟩ := pushAll_fault_of_no_room hfull'
  refine ⟨b, wr, ?_⟩
  rw [hexec, reply, hregs.pushOk_eq, hok, guarded_true, hall, except_map_of_error, outcomeOf_error, hregs.txRd_eq]

/-- Settles O24: EVDRAIN pushes the report, and `pushAll_overflow` says where that stops. -/
theorem evdrainWithoutRoomFaults : Obligations.EvdrainWithoutRoomFaults := by
  intro s j hok hwf hwr hmin hmax hpend hleast hfull
  have hcap := eight_le_txCap_of_wf hwf
  have hlen : (eventReport j).length = 5 := rfl
  obtain ⟨hk, hall⟩ := pushAll_overflow (bs := eventReport j)
    (s := { s with evPending := s.evPending &&& ~~~eventBit j })
    (show s.cfg.txCap ≤ occ s + (eventReport j).length by omega) hwr
  refine ⟨_, List.getElem?_eq_getElem hk, ?_⟩
  rw [exec_evdrain_of_mainDirectOk hok, evdrainBody_of_some (lowestPending?_some.2 ⟨hpend, hmin, hmax, hleast⟩), hall]
  rfl

end Sys2Proof.Proofs
end

