-- ==== Sys2Proof/Proofs/DebounceRuns.lean ====
section
/-!
Sequences of operations, the lanes of a TICK (R171), and the obligations about runs of TICK, PRESS and PWRSTEP.
-/

namespace Sys2Proof.Proofs

open Sys2Proof Sys2Proof.Machine

section PerformAll

variable {s t : State} {i : Instr} {is js : List Instr}

/-- A sequence whose first operation completes goes on from there. -/
theorem performAll_cons (h : exec i s = .next t) : performAll (i :: is) s = performAll is t := by
  simp only [performAll, h]

/-- A sequence whose first part completes goes on from there. -/
theorem performAll_append (h : performAll is s = .next t) : performAll (is ++ js) s = performAll js t := by
  induction is generalizing s with
  | nil => cases h; rfl
  | cons i is ih =>
    cases hexec : exec i s with
    | next u =>
      rw [performAll_cons hexec] at h
      rw [List.cons_append, performAll_cons hexec, ih h]
    | fault f => simp only [performAll, hexec] at h; cases h
    | refused r => simp only [performAll, hexec] at h; cases h

end PerformAll

section Lanes

variable {raw : Byte} {s : State} {i : Nat}

/-- What one TICK does to lane `i`, as a table of the lane's bits (R170). -/
theorem tickBody_lane (hi : i < 8) :
    let changed := laneChanged s raw i
    let ct0 := !(s.ct0.getLsbD i && changed)
    let ct1 := ct0 ^^ (s.ct1.getLsbD i && changed)
    let settled := changed && ct0 && ct1
    (tickBody raw s).ct0.getLsbD i = ct0 ∧ (tickBody raw s).ct1.getLsbD i = ct1 ∧
      (tickBody raw s).stable.getLsbD i = (s.stable.getLsbD i ^^ settled) ∧
      (tickBody raw s).press.getLsbD i = (s.press.getLsbD i || ((s.stable.getLsbD i ^^ settled) && settled)) := by
  have hchanged : (s.stable ^^^ ~~~raw).getLsbD i = laneChanged s raw i := by
    rw [BitVec.getLsbD_xor, BitVec.getLsbD_not, laneChanged]
    cases s.stable.getLsbD i <;> cases raw.getLsbD i <;> simp [hi]
  simp [tickBody, hi, ← hchanged]

/-- Lane `i` of the debouncer: its counter, its accepted state and its pending press (R28). -/
def LaneAt (t : State) (i n : Nat) (stable press : Bool) : Prop :=
  laneCount t i = n ∧ t.stable.getLsbD i = stable ∧ t.press.getLsbD i = press

/-- A lane's counter has two bits (R28). -/
theorem laneCount_le_three (s : State) (i : Nat) : laneCount s i ≤ 3 := by
  have h0 := Bool.toNat_le (s.ct0.getLsbD i)
  have h1 := Bool.toNat_le (s.ct1.getLsbD i)
  rw [laneCount]
  omega

/-- Row 1 of the lane table: an input that agrees with the accepted state re-arms the counter (R171). -/
theorem tickBody_rearms (hi : i < 8) (hc : laneChanged s raw i = false) :
    LaneAt (tickBody raw s) i 3 (s.stable.getLsbD i) (s.press.getLsbD i) := by
  obtain ⟨h0, h1, hstable, hpress⟩ := tickBody_lane (raw := raw) (s := s) hi
  simp [LaneAt, laneCount, h0, h1, hstable, hpress, hc]

/-- Rows 2 to 4: a changed input counts down (R171). -/
theorem tickBody_counts (hi : i < 8) (hc : laneChanged s raw i = true) (hpos : 0 < laneCount s i) :
    LaneAt (tickBody raw s) i (laneCount s i - 1) (s.stable.getLsbD i) (s.press.getLsbD i) := by
  obtain ⟨h0, h1, hstable, hpress⟩ := tickBody_lane (raw := raw) (s := s) hi
  revert hpos
  simp only [LaneAt, laneCount, h0, h1, hstable, hpress, hc]
  cases s.ct0.getLsbD i <;> cases s.ct1.getLsbD i <;> simp

/-- Row 5: a changed input at counter 0 settles the lane; a flip to 1 latches the press (R171). -/
theorem tickBody_settles (hi : i < 8) (hc : laneChanged s raw i = true) (hzero : laneCount s i = 0) :
    LaneAt (tickBody raw s) i 3 (!s.stable.getLsbD i) (s.press.getLsbD i || !s.stable.getLsbD i) := by
  obtain ⟨h0, h1, hstable, hpress⟩ := tickBody_lane (raw := raw) (s := s) hi
  obtain ⟨hct1, hct0⟩ : s.ct1.getLsbD i = false ∧ s.ct0.getLsbD i = false := by
    simpa [laneCount] using hzero
  simp [LaneAt, laneCount, h0, h1, hstable, hpress, hc, hct0, hct1]

end Lanes

/-- Settles O13, by the rows of the lane table. -/
theorem tickLanesFollowTheTable : Obligations.TickLanesFollowTheTable := by
  intro raw s t i hi h
  cases completion_of_exec h with
  | tick => exact ⟨tickBody_rearms hi, tickBody_counts hi, tickBody_settles hi⟩
  | command hcmd => cases hcmd

section TickRuns

variable {s : State} {i : Nat}

/-- A TICK from its context, then the rest (R170). -/
theorem performAll_tick {raw : Byte} {is : List Instr} (hissuer : s.issuer ≠ some .main) :
    performAll (.tick raw :: is) s = performAll is (respond {} (tickBody raw s)) :=
  performAll_cons (exec_tick_of_contextOk (contextOk_interrupt_of_issuer_ne hissuer))

/-- As many disagreeing ticks as the counter stands at take it down by so many and keep the lane (R173). -/
theorem performAll_disagreeing_ticks {raws : List Byte} (hi : i < 8) (hissuer : s.issuer ≠ some .main)
    (hlen : raws.length ≤ laneCount s i) (hraws : ∀ r ∈ raws, r.getLsbD i = s.stable.getLsbD i) :
    ∃ t, performAll (raws.map .tick) s = .next t ∧ t.issuer = s.issuer ∧
      LaneAt t i (laneCount s i - raws.length) (s.stable.getLsbD i) (s.press.getLsbD i) := by
  induction raws generalizing s with
  | nil => exact ⟨s, rfl, rfl, rfl, rfl, rfl⟩
  | cons r raws ih =>
    rw [List.length_cons] at hlen
    have hc : laneChanged s r i = true := by simp [laneChanged, hraws r List.mem_cons_self]
    obtain ⟨hcount, hstable, hpress⟩ := tickBody_counts hi hc (by omega)
    obtain ⟨t, hrun, hissuer', hlane⟩ := ih (s := respond {} (tickBody r s)) hissuer
      (show raws.length ≤ laneCount (tickBody r s) i by omega)
      (fun r' hr' => (hraws r' (List.mem_cons_of_mem r hr')).trans hstable.symm)
    refine ⟨t, by rw [List.map_cons, performAll_tick hissuer, hrun], hissuer', ?_⟩
    have hrest : laneCount s i - (r :: raws).length = laneCount (tickBody r s) i - raws.length := by
      rw [hcount, List.length_cons]
      omega
    rw [hrest, ← hstable, ← hpress]
    exact hlane

/-- No more ticks than the counter stands at, whatever they bring, keep the accepted state and the press of the lane
(R174). -/
theorem performAll_ticks_keep_lane {raws : List Byte} (hi : i < 8) (hissuer : s.issuer ≠ some .main)
    (hlen : raws.length ≤ laneCount s i) :
    ∃ t, performAll (raws.map .tick) s = .next t ∧ t.issuer = s.issuer ∧
      t.stable.getLsbD i = s.stable.getLsbD i ∧ t.press.getLsbD i = s.press.getLsbD i := by
  induction raws generalizing s with
  | nil => exact ⟨s, rfl, rfl, rfl, rfl⟩
  | cons r raws ih =>
    rw [List.length_cons] at hlen
    have hle := laneCount_le_three s i
    obtain ⟨n, hn, hcount, hstable, hpress⟩ : ∃ n, raws.length ≤ n ∧
        LaneAt (tickBody r s) i n (s.stable.getLsbD i) (s.press.getLsbD i) := by
      cases hc : laneChanged s r i with
      | false => exact ⟨3, by omega, tickBody_rearms hi hc⟩
      | true => exact ⟨_, by omega, tickBody_counts hi hc (by omega)⟩
    obtain ⟨t, hrun, hissuer', hstable', hpress'⟩ := ih (s := respond {} (tickBody r s)) hissuer
      (show raws.length ≤ laneCount (tickBody r s) i by omega)
    exact ⟨t, by rw [List.map_cons, performAll_tick hissuer, hrun], hissuer', hstable'.trans hstable,
      hpress'.trans hpress⟩

end TickRuns

/-- Settles O14: three disagreeing ticks count down to 0, the fourth settles the lane. -/
theorem fourDisagreeingTicksSettleALane : Obligations.FourDisagreeingTicksSettleALane := by
  intro s r1 r2 r3 r4 i hi hissuer hcount h1 h2 h3 h4
  obtain ⟨t, hrun, hissuer', hlane⟩ := performAll_disagreeing_ticks (raws := [r1, r2, r3]) hi hissuer
    (by rw [hcount]; rfl) (by simp [h1, h2, h3])
  rw [hcount] at hlane
  obtain ⟨hzero, hstable, hpress⟩ := hlane
  have hc : laneChanged t r4 i = true := by rw [laneChanged, hstable, h4, beq_self_eq_true]
  have hsettle := tickBody_settles hi hc hzero
  rw [hstable, hpress] at hsettle
  refine ⟨⟨t, hrun, hzero, hstable, hpress⟩, respond {} (tickBody r4 t), ?_, hsettle⟩
  exact (performAll_append (js := [.tick r4]) hrun).trans (performAll_tick (hissuer' ▸ hissuer))

/-- Settles O15: the ticks keep the lane, and the one that agrees re-arms the counter. -/
theorem glitchesShorterThanFourTicksAreRejected : Obligations.GlitchesShorterThanFourTicksAreRejected := by
  intro s raws r i hi hissuer hcount hlen hr
  obtain ⟨t, hrun, hissuer', hstable, hpress⟩ := performAll_ticks_keep_lane (raws := raws) hi hissuer
    (hlen.trans hcount.ge)
  have hc : laneChanged t r i = false := by
    rw [laneChanged, hstable, hr]
    cases s.stable.getLsbD i <;> rfl
  have hrearm := tickBody_rearms hi hc
  rw [hstable, hpress] at hrearm
  refine ⟨respond {} (tickBody r t), ?_, hrearm⟩
  rw [List.map_append, performAll_append hrun]
  exact performAll_tick (hissuer' ▸ hissuer)

/-- A lane that a PRESS returned is no longer pending (R176). -/
theorem press_and_mask_of_cleared (press mask : Byte) : press &&& ~~~(press &&& mask) &&& mask = 0#8 := by
  ext k hk
  simp only [BitVec.getElem_and, BitVec.getElem_not, BitVec.getElem_zero]
  cases press[k] <;> cases mask[k] <;> rfl

/-- A PRESS that finds none of its lanes pending changes the outputs alone (R176). -/
theorem pressBody_of_none {mask : Byte} {s : State} (h : s.press &&& mask = 0) :
    pressBody mask s = { s with out := {} } := by
  have hkept : s.press &&& ~~~(0 : Byte) = s.press := BitVec.and_allOnes
  rw [pressBody, h, hkept]
  rfl

/-- Settles O33: the second PRESS finds its lanes cleared. -/
theorem pressIsConsumedOnce : Obligations.PressIsConsumedOnce := by
  intro mask s hok
  have hnone : (pressBody mask s).press &&& mask = 0 := press_and_mask_of_cleared s.press mask
  refine ⟨pressBody mask s, pressBody mask (pressBody mask s), exec_press_of_mainDirectOk hok, rfl,
    exec_press_of_mainDirectOk hok, hnone, ?_⟩
  rw [pressBody_of_none hnone]
  rfl

/-- What a PRESS returns and leaves of a lane its mask selects (R176). -/
theorem pressBody_lane {mask : Byte} {i : Nat} (s : State) (hi : i < 8) (hmask : mask.getLsbD i = true) :
    (pressBody mask s).out.rsp.pressed.getLsbD i = s.press.getLsbD i ∧ (pressBody mask s).press.getLsbD i = false := by
  constructor
  · rw [pressBody_out, BitVec.getLsbD_and, hmask, Bool.and_true]
  · rw [pressBody_press, BitVec.getLsbD_and, BitVec.getLsbD_not, BitVec.getLsbD_and, hmask, decide_eq_true hi,
      Bool.true_and, Bool.and_true, Bool.and_not_self]

/-- Settles O34: a TICK reads no pending press and a PRESS no counter, so the lane settles in either order; only the
one that comes second sees what the first left. -/
theorem tickBesidePressGivesOneOfTwoOrders : Obligations.TickBesidePressGivesOneOfTwoOrders := by
  intro s raw mask i hi hissuer hdirect hc hcount hstable hmask
  have hctx : s.issuer ≠ some .main := by rw [hissuer]; exact Option.some_ne_none _ |>.symm
  have hok : mainDirectOk s = true := by rw [mainDirectOk, contextOk, hissuer, hdirect]; rfl
  have hset : ∀ {u : State}, laneChanged u raw i = true → laneCount u i = 0 → u.stable.getLsbD i = false →
      (tickBody raw u).press.getLsbD i = true := fun hc hcount hstable => by
    obtain ⟨-, -, hpress⟩ := tickBody_settles hi hc hcount
    rw [hpress, hstable, Bool.not_false, Bool.or_true]
  obtain ⟨hreturned, hcleared⟩ := pressBody_lane (respond {} (tickBody raw s)) hi hmask
  refine ⟨pressBody mask (respond {} (tickBody raw s)), pressBody mask s, respond {} (tickBody raw (pressBody mask s)),
    ?_, hreturned.trans (hset hc hcount hstable), hcleared, exec_press_of_mainDirectOk hok,
    (pressBody_lane s hi hmask).1, exec_tick_of_contextOk (contextOk_interrupt_of_issuer_ne hctx),
    hset hc hcount hstable⟩
  rw [performAll_tick hctx]
  exact performAll_cons (exec_press_of_mainDirectOk hok)

/-- So many PWRSTEPs move the index by so many, modulo the table's length (R178). -/
theorem performAll_pwrsteps {s : State} (hok : mainDirectOk s = true) (hwf : s.cfg.wf = true)
    (hidx : s.pwrIdx.toNat < s.cfg.pwrStepsLen) (n : Nat) :
    ∃ t, performAll (List.replicate n .pwrstep) s = .next t ∧
      t.pwrIdx.toNat = (s.pwrIdx.toNat + n) % s.cfg.pwrStepsLen := by
  induction n generalizing s with
  | zero => exact ⟨s, rfl, (Nat.mod_eq_of_lt hidx).symm⟩
  | succ n ih =>
    have hnext := toNat_nextIndex hwf s.pwrIdx
    obtain ⟨t, hrun, ht⟩ := ih (s := respond {} { s with pwrIdx := nextIndex s.cfg s.pwrIdx }) hok hwf
      (hnext ▸ Nat.mod_lt _ (pwrStepsLen_of_wf hwf).1)
    refine ⟨t, by rw [List.replicate_succ, performAll_cons (exec_pwrstep_of_mainDirectOk hok), hrun], ht.trans ?_⟩
    change ((nextIndex s.cfg s.pwrIdx).toNat + n) % s.cfg.pwrStepsLen = _
    rw [hnext, Nat.mod_add_mod, Nat.add_assoc, Nat.add_comm 1 n]

/-- Settles O36: once round the table is 0 modulo its length. -/
theorem pwrstepsCycleThroughTheTable : Obligations.PwrstepsCycleThroughTheTable := by
  intro s hok hwf hidx
  obtain ⟨t, hrun, ht⟩ := performAll_pwrsteps hok hwf hidx s.cfg.pwrStepsLen
  rw [Nat.add_mod_right, Nat.mod_eq_of_lt hidx] at ht
  exact ⟨t, hrun, BitVec.eq_of_toNat_eq ht⟩

end Sys2Proof.Proofs
end

