-- ==== Sys2Proof/Proofs/PwmRuns.lean ====
section
/-!
Runs of overflows with a constant threshold (R201 to R203), and the obligations about PWMOVF that run it more than
once or past the table.
-/

namespace Sys2Proof.Proofs

open Sys2Proof Sys2Proof.Machine

/-- An output after `n` overflows from count `cnt` with threshold `T` (R200). -/
def outputAfter (cnt T : Byte) (old : Bool) : Nat → Bool
  | 0 => old
  | n + 1 => pwmOutput (cnt + BitVec.ofNat 8 (n + 1)) T (outputAfter cnt T old n)

/-- One overflow issued from its context with the index in the table (R200). -/
theorem exec_pwmovf_of_threshold {s : State} {T : Byte} (hissuer : s.issuer ≠ some .main)
    (hT : s.cfg.pwrSteps[s.pwrIdx.toNat]? = some T) :
    exec .pwmovf s = .next
      { s with
        pwmCnt := s.pwmCnt + 1
        heaterOn := pwmOutput (s.pwmCnt + 1) T s.heaterOn
        ledOn := pwmOutput (s.pwmCnt + 1) T s.ledOn
        out := {} } := by
  rw [exec_pwmovf_of_contextOk (contextOk_interrupt_of_issuer_ne hissuer),
    pwmBody_of_readThreshold (readThreshold_of_getElem? hT)]
  rfl

/-- Overflows issued from their context with the index in the table: the count advances, both outputs follow
`outputAfter`, and a following overflow finds the same issuer, parameters and index (R200). -/
theorem performAll_pwmovfs {s : State} {T : Byte} (hissuer : s.issuer ≠ some .main)
    (hT : s.cfg.pwrSteps[s.pwrIdx.toNat]? = some T) (n : Nat) :
    ∃ o, performAll (pseudoPwmovfs n) s = .next
      { s with
        pwmCnt := s.pwmCnt + BitVec.ofNat 8 n
        heaterOn := outputAfter s.pwmCnt T s.heaterOn n
        ledOn := outputAfter s.pwmCnt T s.ledOn n
        out := o } := by
  induction n with
  | zero => exact ⟨s.out, by rw [BitVec.add_zero]; rfl⟩
  | succ n ih =>
    obtain ⟨o, hrun⟩ := ih
    have hcnt : s.pwmCnt + BitVec.ofNat 8 n + 1 = s.pwmCnt + BitVec.ofNat 8 (n + 1) := by
      rw [BitVec.add_assoc, BitVec.ofNat_add]
      rfl
    have hsplit : pseudoPwmovfs (n + 1) = pseudoPwmovfs n ++ [.pwmovf] := List.replicate_succ'
    refine ⟨{}, ?_⟩
    rw [hsplit, performAll_append hrun, performAll_cons (exec_pwmovf_of_threshold (T := T) ?_ ?_)]
    · simp only [hcnt]
      rfl
    · exact hissuer
    · exact hT

/-- Settles O17: the table read past the end takes a free value. -/
theorem pwmovfPastTheTableUsesAFreeThreshold : Obligations.PwmovfPastTheTableUsesAFreeThreshold := by
  intro s hissuer hpast
  refine ⟨_, rfl, ?_⟩
  have hread : readThreshold s = takeFree s := by
    rcases readThreshold_cases s with ⟨T, hT, -⟩ | ⟨-, hread⟩
    · rw [List.getElem?_eq_none hpast] at hT
      cases hT
    · exact hread
  rw [exec_pwmovf_of_contextOk (contextOk_interrupt_of_issuer_ne hissuer),
    pwmBody_of_readThreshold (u := { s with fresh := s.fresh + 1 }) hread]
  rfl

/-- From the overflow that wraps the counter on, an output is active while the count is below the threshold (R202). -/
theorem outputAfter_of_wrap (T : Byte) (old : Bool) (n : Nat) :
    outputAfter 0xFF T old (n + 1) = decide (n % 256 < T.toNat) := by
  have hT : T.toNat < 2 ^ 8 := T.isLt
  have hcnt : ∀ m : Nat, ((0xFF : Byte) + BitVec.ofNat 8 (m + 1)).toNat = m % 256 := fun m => by
    rw [BitVec.toNat_add, BitVec.toNat_ofNat]
    change (255 + (m + 1) % 2 ^ 8) % 2 ^ 8 = m % 256
    omega
  have hstep : ∀ (m : Nat) (b : Bool), pwmOutput ((0xFF : Byte) + BitVec.ofNat 8 (m + 1)) T b =
      if m % 256 = T.toNat then false else if m % 256 = 0 then true else b := fun m b => by
    simp only [pwmOutput_eq_ite, ← BitVec.toNat_inj, hcnt]
    rfl
  induction n with
  | zero =>
    rw [outputAfter, hstep]
    split_ifs <;> simp <;> omega
  | succ n ih =>
    rw [outputAfter, ih, hstep]
    split_ifs <;> simp <;> omega

/-- Settles O18, by the outputs of a run that begins with the wrap. -/
theorem pwmDutyIsThresholdOver256 : Obligations.PwmDutyIsThresholdOver256 := by
  intro s T n hissuer hT hcnt
  obtain ⟨o, hrun⟩ := performAll_pwmovfs hissuer hT (n + 1)
  refine ⟨_, hrun, ?_, ?_, ?_⟩
  · rw [hcnt, Nat.add_comm, BitVec.ofNat_add, ← BitVec.add_assoc]
    exact BitVec.zero_add _
  · rw [State.heaterPort, hcnt]
    exact outputAfter_of_wrap T _ n
  · rw [State.ledPort, hcnt]
    exact outputAfter_of_wrap T _ n

/-- With threshold 0 an output is kept until the counter wraps and inactive from then on (R201, R203). -/
theorem outputAfter_zero (cnt : Byte) (old : Bool) (n : Nat) :
    outputAfter cnt 0 old n = if n < 256 - cnt.toNat then old else false := by
  have hlt : cnt.toNat < 2 ^ 8 := cnt.isLt
  induction n with
  | zero => rw [outputAfter, if_pos (by omega)]
  | succ n ih =>
    have hzero : cnt + BitVec.ofNat 8 (n + 1) = 0 ↔ (cnt.toNat + (n + 1)) % 256 = 0 := by
      rw [← BitVec.toNat_inj, BitVec.toNat_add, BitVec.toNat_ofNat, Nat.add_mod_mod]
      rfl
    rw [outputAfter, ih, pwmOutput_eq_ite]
    by_cases hkept : n + 1 < 256 - cnt.toNat
    · have hnz : ¬ cnt + BitVec.ofNat 8 (n + 1) = 0 := by rw [hzero]; omega
      rw [if_neg hnz, if_neg hnz, if_pos (by omega), if_pos hkept]
    · by_cases hwrap : n + 1 = 256 - cnt.toNat
      · rw [if_pos (hzero.2 (by omega)), if_neg hkept]
      · rw [if_neg (by omega : ¬ n < 256 - cnt.toNat), if_neg hkept]
        split_ifs <;> rfl

/-- Settles O19, by the outputs of a run with threshold 0. -/
theorem thresholdZeroTurnsOffAtTheWrap : Obligations.ThresholdZeroTurnsOffAtTheWrap := by
  intro s n hissuer hT
  obtain ⟨o, hrun⟩ := performAll_pwmovfs hissuer hT n
  refine ⟨_, hrun, fun hn => ?_, fun hn => ?_⟩
  · simp only [State.heaterPort, State.ledPort, outputAfter_zero, if_pos hn, and_self]
  · simp only [State.heaterPort, State.ledPort, outputAfter_zero, if_neg (Nat.not_lt.2 hn), and_self]

end Sys2Proof.Proofs
end

