-- ==== Sys2Proof/Proofs/Registers.lean ====
section
/-!
The commands that access a device register (R226 to R229, R238), and the obligations about them.
-/

namespace Sys2Proof.Proofs

open Sys2Proof Sys2Proof.Machine

/-- A reply after register accesses, allowed by the profile and with room for it, appends its bytes, resets the token
buffer, and leaves the registers and the bus as the accesses left them (R231, R244). -/
theorem reply_of_room {s u : State} {bs : List Byte} (hne : bs ≠ []) (hregs : RegistersAccessed s u)
    (hok : pushOk s = true) (hroom : occ s + bs.length < s.cfg.txCap) :
    ∃ t, reply bs u = .next t ∧ RingAppended s t bs ∧
      t = { s with
        txBuf := t.txBuf, txWr := t.txWr, devMem := u.devMem, tok := [], fresh := u.fresh,
        out := { regBus := u.out.regBus } } := by
  have hroom' : occ u + bs.length < u.cfg.txCap := by rw [hregs.occ_eq, hregs.cfg_eq]; exact hroom
  obtain ⟨t, hreply⟩ := reply_completes (hregs.pushOk_eq.trans hok) hroom'
  obtain ⟨-, -, happ, hframe⟩ := reply_next hne hreply
  have hout : { u.out with rsp := {} } = { regBus := u.out.regBus : Outputs } := by rw [← hregs.txChunk_eq]
  have hringEq : ∀ a, ringRead u a = ringRead s a := fun a => by rw [hregs.frame]; exact ringRead_congr rfl rfl rfl a
  obtain ⟨hwr, hnew, hold⟩ := happ
  have hcfg := hregs.cfg_eq
  have hwrEq : u.txWr = s.txWr := by rw [hregs.frame]
  rw [hcfg, hwrEq] at hwr
  rw [hwrEq] at hnew
  rw [hcfg, hwrEq] at hold
  refine ⟨t, hreply, ⟨hwr, hnew, fun a ha => (hold a ha).trans (hringEq a)⟩, ?_⟩
  rw [hout] at hframe
  rw [hregs.frame] at hframe
  exact hframe

/-- The contents of a register are read off the cells written and the reset number alone (R238). -/
theorem devContents_congr {s t : State} (hm : t.devMem = s.devMem) (he : t.epoch = s.epoch) (a : Byte) :
    devContents t a = devContents s a := by
  rw [devContents, devContents, hm, he]

/-- After a reply as `reply_of_room` has it, a register holds what the accesses before it left (R231, R238). -/
theorem devContents_of_reply {s t u : State} (hregs : RegistersAccessed s u)
    (h : t = { s with
      txBuf := t.txBuf, txWr := t.txWr, devMem := u.devMem, tok := [], fresh := u.fresh,
      out := { regBus := u.out.regBus } }) (a : Byte) : devContents t a = devContents u a := by
  have hm : t.devMem = u.devMem := by rw [h]
  have hepoch : t.epoch = s.epoch := by rw [h]
  have hepoch' : u.epoch = s.epoch := by rw [hregs.frame]
  exact devContents_congr hm (hepoch.trans hepoch'.symm) a

/-- The load a command begins with (R226, R229): the access it shows, and that it changes no register. -/
theorem devRead_clearOut_spec (a : Byte) (s : State) :
    ∃ v u, devRead a (clearOut s) = (v, u) ∧ RegistersAccessed s u ∧
      (isStorage s.cfg a = true → v = devContents s a ∧ u.fresh = s.fresh) ∧ u.devMem = s.devMem ∧
      u.epoch = s.epoch ∧ u.out.regBus = [.read a v] := by
  have hregs := (registersAccessed_clearOut s).devRead a
  have hcases := devRead_cases a (clearOut s)
  obtain ⟨⟨v, u⟩, hload⟩ : ∃ r, devRead a (clearOut s) = r := ⟨_, rfl⟩
  rw [hload] at hregs hcases
  dsimp only at hcases
  refine ⟨v, u, hload, hregs, ?_⟩
  obtain ⟨_, rfl, ⟨-, hcontents, rfl⟩ | ⟨hfree, rfl⟩⟩ := hcases
  · exact ⟨fun _ => ⟨hcontents, rfl⟩, rfl, rfl, rfl⟩
  · refine ⟨fun hstorage => ?_, rfl, rfl, rfl⟩
    rw [← clearOut_cfg, hfree] at hstorage
    cases hstorage

/-- Settles O43: the reply spells the value that the load answered. -/
theorem getRepliesTheRegisterInHex : Obligations.GetRepliesTheRegisterInHex := by
  intro s hok hroom
  obtain ⟨v, u, hload, hregs, hstorage, hmem, -, hbus⟩ := devRead_clearOut_spec s.tos s
  obtain ⟨t, hreply, happ, hframe⟩ := reply_of_room (bs := hexByte v ++ crlf) (List.cons_ne_nil _ _) hregs hok hroom
  have hexec : exec .get s = reply (hexByte v ++ crlf) u := by
    change reply (hexByte (devRead s.tos (clearOut s)).1 ++ crlf) (devRead s.tos (clearOut s)).2 = _
    rw [hload]
  have hfresh : t.fresh = u.fresh := by rw [hframe]
  rw [hmem, hbus, ← hfresh] at hframe
  exact ⟨t, v, hexec.trans hreply, hfresh ▸ hstorage, happ, hframe⟩

/-- Settles O44: one store, then the reply. -/
theorem setWritesTheRegister : Obligations.SetWritesTheRegister := by
  intro s hok hroom
  have hregs := (registersAccessed_clearOut s).devWrite s.tos s.val
  obtain ⟨t, hreply, happ, hframe⟩ := reply_of_room (bs := crlf) (List.cons_ne_nil _ _) hregs hok hroom
  refine ⟨t, hreply, happ, fun a => ?_, ?_⟩
  · exact (devContents_of_reply hregs hframe a).trans (devContents_devWrite s.tos a s.val (clearOut s))
  · have hmem : t.devMem = (devWrite s.tos s.val (clearOut s)).devMem := by rw [hframe]
    rw [hmem]
    exact hframe

/-- Settles O45: two stores, of which the second stays, then the reply. -/
theorem setTwiceWritesBothInOrder : Obligations.SetTwiceWritesBothInOrder := by
  intro s hok hroom
  have hregs := ((registersAccessed_clearOut s).devWrite s.tos s.val).devWrite s.tos s.val2
  obtain ⟨t, hreply, happ, hframe⟩ := reply_of_room (bs := crlf) (List.cons_ne_nil _ _) hregs hok hroom
  refine ⟨t, hreply, happ, fun a => ?_, ?_⟩
  · rw [devContents_of_reply hregs hframe, devContents_devWrite, devContents_devWrite]
    change (if a = s.tos ∧ isStorage s.cfg s.tos = true then s.val2
      else if a = s.tos ∧ isStorage s.cfg s.tos = true then s.val else devContents s a) = _
    split_ifs <;> rfl
  · have hmem : t.devMem = (devWrite s.tos s.val2 (devWrite s.tos s.val (clearOut s))).devMem := by rw [hframe]
    rw [hmem]
    exact hframe

/-- A combining command: one load, one store of the combination, then the reply (R229). -/
theorem combineReply_of_room {s : State} (f : Byte → Byte → Byte) (hok : pushOk s = true)
    (hroom : occ s + 2 < s.cfg.txCap) :
    ∃ (t : State) (v : Byte), combineReply f s = .next t ∧
      (isStorage s.cfg s.tos = true → v = devContents s s.tos ∧ t.fresh = s.fresh) ∧
      RingAppended s t crlf ∧
      (∀ a, devContents t a = if a = s.tos ∧ isStorage s.cfg s.tos = true then f v s.val else devContents s a) ∧
      t = { s with
        txBuf := t.txBuf, txWr := t.txWr, devMem := t.devMem, tok := [], fresh := t.fresh,
        out := { regBus := [.read s.tos v, .write s.tos (f v s.val)] } } := by
  obtain ⟨v, u, hload, hloaded, hstorage, hmem, hepoch, hbus⟩ := devRead_clearOut_spec s.tos s
  have hregs := hloaded.devWrite s.tos (f v s.val)
  obtain ⟨t, hreply, happ, hframe⟩ := reply_of_room (bs := crlf) (List.cons_ne_nil _ _) hregs hok hroom
  have hexec : combineReply f s = reply crlf (devWrite s.tos (f v s.val) u) := by
    rw [combineReply, hload]
  have hfresh : t.fresh = u.fresh := by rw [hframe]; rfl
  have hcells : t.devMem = (devWrite s.tos (f v s.val) u).devMem := by rw [hframe]
  refine ⟨t, v, hexec.trans hreply, hfresh ▸ hstorage, happ, fun a => ?_, ?_⟩
  · rw [devContents_of_reply hregs hframe, devContents_devWrite, devContents_congr hmem hepoch, hloaded.cfg_eq]
  · rw [devWrite_out, hbus, ← hcells, devWrite_fresh, ← hfresh] at hframe
    exact hframe

/-- Settles O46: the three operators of `combineReply`. -/
theorem combiningCommandsReadModifyWrite : Obligations.CombiningCommandsReadModifyWrite := by
  intro s i f hi hok hroom
  have hexec : exec i s = combineReply f s := by
    rcases hi with ⟨rfl, hf⟩ | ⟨rfl, hf⟩ | ⟨rfl, hf⟩
    all_goals
      rw [show f = _ from funext fun x => funext (hf x)]
      rfl
  rw [hexec]
  exact combineReply_of_room f hok hroom

/-- Settles O48: SET leaves the value in the register and the GET after it spells it; each reply goes to the queue's
end. -/
theorem setThenGetRoundTrips : Obligations.SetThenGetRoundTrips := by
  intro s hok hstorage hroom
  obtain ⟨t, hset, happ, hcontents, hframe⟩ := setWritesTheRegister s hok (by omega)
  have hcfg : t.cfg = s.cfg := by rw [hframe]
  have htos : t.tos = s.tos := by rw [hframe]
  have hrd : t.txRd = s.txRd := by rw [hframe]
  have hqueue : ringQueue t = ringQueue s ++ [0x0D, 0x0A] :=
    ringQueue_of_appended happ hcfg hrd (show occ s + 2 < s.cfg.txCap by omega)
  have hocc : occ t = occ s + 2 := by rw [← length_ringQueue, hqueue, List.length_append, length_ringQueue]; rfl
  have hok' : pushOk t = true := by rw [hframe]; exact hok
  obtain ⟨u, v, hget, hval, happ', hframe'⟩ := getRepliesTheRegisterInHex t hok' (by rw [hocc, hcfg]; omega)
  have hcfg' : u.cfg = t.cfg := by rw [hframe']
  have hrd' : u.txRd = t.txRd := by rw [hframe']
  obtain ⟨hv, -⟩ := hval (by rw [hcfg, htos]; exact hstorage)
  rw [htos, hcontents, if_pos ⟨rfl, hstorage⟩] at hv
  refine ⟨u, by rw [performAll_cons hset, performAll_cons hget]; rfl, ?_⟩
  rw [ringQueue_of_appended happ' hcfg' hrd' (show occ t + 4 < t.cfg.txCap by rw [hocc, hcfg]; omega), hqueue, hv,
    List.append_assoc]
  simp only [List.append_assoc]
  rfl

end Sys2Proof.Proofs
end

