-- ==== Sys2Proof/Proofs/EventRuns.lean ====
section
/-!
Runs of RAISE and EVDRAIN (R73, R152, R153), and the obligations about them.
-/

namespace Sys2Proof.Proofs

open Sys2Proof Sys2Proof.Machine

section Runs

variable {s : State}

/-- Any number of RAISEs of IDs in range sets their flags and no other, and changes nothing else but the outputs
(R150). -/
theorem performAll_raises {ids : List Byte} (hissuer : s.issuer ≠ some .main)
    (hids : ∀ id ∈ ids, s.cfg.evMin ≤ id.toNat ∧ id.toNat ≤ s.cfg.evMax) :
    ∃ ev o, performAll (ids.map .raise) s = .next { s with evPending := ev, out := o } ∧
      ∀ m, ev.getLsbD m = true ↔ s.evPending.getLsbD m = true ∨ ∃ id ∈ ids, m = id.toNat := by
  induction ids generalizing s with
  | nil => exact ⟨s.evPending, s.out, rfl, by simp⟩
  | cons id ids ih =>
    obtain ⟨hmin, hmax⟩ := hids id List.mem_cons_self
    have hraise := exec_raise_of_inRange hmin hmax (contextOk_interrupt_of_issuer_ne hissuer)
    obtain ⟨ev, o, hrun, hev⟩ := ih (s := respond {} { s with evPending := s.evPending ||| eventBit id }) hissuer
      (fun id' h => hids id' (List.mem_cons_of_mem id h))
    refine ⟨ev, o, by rw [List.map_cons, performAll_cons hraise, hrun]; rfl, fun m => ?_⟩
    rw [hev, respond_evPending, getLsbD_or_eventBit]
    simp only [Bool.or_eq_true, decide_eq_true_eq, List.mem_cons, exists_eq_or_imp]
    tauto

/-- An EVDRAIN with room reports the lowest pending event: it answers its ID, appends its report and clears its flag
(R151, R152). -/
theorem exec_evdrain_reports {j : Byte} (hok : mainDirectOk s = true) (hlow : lowestPending? s = some j.toNat)
    (hroom : occ s + 5 < s.cfg.txCap) :
    ∃ t, exec .evdrain s = .next t ∧ t.out.rsp.valid = true ∧ t.out.rsp.id = j ∧
      ringQueue t = ringQueue s ++ eventReport j ∧
      t = { s with
        txBuf := t.txBuf, txWr := t.txWr, evPending := s.evPending &&& ~~~eventBit j,
        out := { rsp := { valid := true, id := j } } } := by
  obtain ⟨t, hbody, happ, hframe⟩ := evdrainBody_of_room hlow hroom
  have hcfg : t.cfg = s.cfg := by rw [hframe]
  have hrd : t.txRd = s.txRd := by rw [hframe]
  refine ⟨t, ?_, by rw [hframe], by rw [hframe], ringQueue_of_appended happ hcfg hrd hroom, hframe⟩
  rw [exec_evdrain_of_mainDirectOk hok, hbody, outcomeOf_ok]

/-- An EVDRAIN with nothing pending answers that (R151). -/
theorem exec_evdrain_idle (hok : mainDirectOk s = true) (hlow : lowestPending? s = none) :
    exec .evdrain s = .next (respond {} s) := by
  rw [exec_evdrain_of_mainDirectOk hok, evdrainBody_of_none hlow, outcomeOf_ok]

/-- In the direct profile with no issuer declared the operations of the main context are legal (R270, R294). -/
theorem mainDirectOk_of_unattributed (hissuer : s.issuer = none) (hdirect : s.profile = .direct) :
    mainDirectOk s = true := by
  rw [mainDirectOk, contextOk, hissuer, hdirect]
  rfl

/-- The flags in range that are set are those of the IDs listed (R26). -/
def PendingExactly (s : State) (js : List Byte) : Prop :=
  ∀ m, s.cfg.evMin ≤ m → m ≤ s.cfg.evMax → (s.evPending.getLsbD m = true ↔ ∃ j ∈ js, m = j.toNat)

theorem lowestPending?_of_pendingExactly_nil (h : PendingExactly s []) : lowestPending? s = none :=
  lowestPending?_none.2 fun m hmin hmax => Bool.eq_false_iff.2 fun hm => by simpa using (h m hmin hmax).1 hm

theorem lowestPending?_of_pendingExactly_cons {j : Byte} {js : List Byte} (h : PendingExactly s (j :: js))
    (hmin : s.cfg.evMin ≤ j.toNat) (hmax : j.toNat ≤ s.cfg.evMax) (hleast : ∀ k ∈ js, j.toNat < k.toNat) :
    lowestPending? s = some j.toNat := by
  refine lowestPending?_some.2 ⟨(h _ hmin hmax).2 ⟨j, List.mem_cons_self, rfl⟩, hmin, hmax, fun m hm hlt => ?_⟩
  refine Bool.eq_false_iff.2 fun hpend => ?_
  obtain ⟨k, hk, rfl⟩ := (h m hm (by omega)).1 hpend
  rcases List.mem_cons.1 hk with rfl | hk
  · exact absurd hlt (Nat.lt_irrefl _)
  · exact absurd hlt (Nat.lt_asymm (hleast k hk))

/-- Clearing the flag of the first ID listed leaves the others (R151). -/
theorem pendingExactly_of_cleared {t : State} {j : Byte} {js : List Byte} (h : PendingExactly s (j :: js))
    (hleast : ∀ k ∈ js, j.toNat < k.toNat) (hcfg : t.cfg = s.cfg)
    (hev : t.evPending = s.evPending &&& ~~~eventBit j) : PendingExactly t js := by
  intro m hmin hmax
  rw [hcfg] at hmin hmax
  rw [hev, getLsbD_and_not_eventBit, Bool.and_eq_true, h m hmin hmax, Bool.not_eq_true', decide_eq_false_iff_not]
  constructor
  · rintro ⟨⟨k, hk, rfl⟩, hne⟩
    rcases List.mem_cons.1 hk with rfl | hk
    · exact absurd rfl hne
    · exact ⟨k, hk, rfl⟩
  · rintro ⟨k, hk, rfl⟩
    exact ⟨⟨k, List.mem_cons_of_mem j hk, rfl⟩, Nat.ne_of_gt (hleast k hk)⟩

/-- An EVDRAIN of the least of the pending IDs reports it and leaves the others pending (R151, R152). -/
theorem exec_evdrain_of_pendingExactly {j : Byte} {js : List Byte} (hok : mainDirectOk s = true)
    (h : PendingExactly s (j :: js)) (hmin : s.cfg.evMin ≤ j.toNat) (hmax : j.toNat ≤ s.cfg.evMax)
    (hleast : ∀ k ∈ js, j.toNat < k.toNat) (hroom : occ s + 5 < s.cfg.txCap) :
    ∃ t, exec .evdrain s = .next t ∧ t.out.rsp.valid = true ∧ t.out.rsp.id = j ∧
      ringQueue t = ringQueue s ++ eventReport j ∧ mainDirectOk t = true ∧ t.cfg = s.cfg ∧ PendingExactly t js := by
  obtain ⟨t, hexec, hvalid, hid, hqueue, hframe⟩ :=
    exec_evdrain_reports hok (lowestPending?_of_pendingExactly_cons h hmin hmax hleast) hroom
  have hcfg : t.cfg = s.cfg := by rw [hframe]
  have hev : t.evPending = s.evPending &&& ~~~eventBit j := by rw [hframe]
  exact ⟨t, hexec, hvalid, hid, hqueue, by rw [hframe]; exact hok, hcfg, pendingExactly_of_cleared h hleast hcfg hev⟩

/-- RAISEs of the IDs listed, in any order and number, with nothing pending before: those IDs are pending, the queue
and the issue's legality are as before (R150, R153). -/
theorem performAll_raises_pendingExactly {ids js : List Byte} (hissuer : s.issuer ≠ some .main)
    (hids : ∀ id, id ∈ ids ↔ id ∈ js) (hrange : ∀ id ∈ js, s.cfg.evMin ≤ id.toNat ∧ id.toNat ≤ s.cfg.evMax)
    (hidle : ∀ m, s.cfg.evMin ≤ m → m ≤ s.cfg.evMax → s.evPending.getLsbD m = false) :
    ∃ r, performAll (ids.map .raise) s = .next r ∧ PendingExactly r js ∧ mainDirectOk r = mainDirectOk s ∧
      r.cfg = s.cfg ∧ ringQueue r = ringQueue s := by
  obtain ⟨ev, o, hrun, hev⟩ := performAll_raises hissuer fun id hid => hrange id ((hids id).1 hid)
  refine ⟨_, hrun, fun m hmin hmax => ?_, rfl, rfl, ringQueue_congr rfl rfl rfl rfl rfl⟩
  change ev.getLsbD m = true ↔ _
  rw [hev, hidle m hmin hmax]
  simp only [Bool.false_eq_true, false_or, hids]

end Runs

/-- Settles O25: the RAISEs leave the flags of `j` and `k` alone set, and each EVDRAIN clears the one it reports. -/
theorem raisedEventsAreReportedOnceLowestFirst : Obligations.RaisedEventsAreReportedOnceLowestFirst := by
  intro s j k ids hj hk hids hissuer hdirect hwf hmin hjk hmax hidle hroom
  have hctx : s.issuer ≠ some .main := by rw [hissuer]; exact (Option.some_ne_none _).symm
  have hmem : ∀ id, id ∈ ids ↔ id ∈ [j, k] := fun id => by
    rw [List.mem_pair]
    exact ⟨hids id, by rintro (rfl | rfl) <;> assumption⟩
  have hrange : ∀ id ∈ [j, k], s.cfg.evMin ≤ id.toNat ∧ id.toNat ≤ s.cfg.evMax := fun id hid => by
    rcases List.mem_pair.1 hid with rfl | rfl <;> omega
  obtain ⟨r, hrun, hpending, hrok, hrcfg, hrqueue⟩ := performAll_raises_pendingExactly hctx hmem hrange hidle
  have hrocc : occ r = occ s := by rw [← length_ringQueue, hrqueue, length_ringQueue]
  obtain ⟨t, ht, htvalid, htid, htqueue, htok, htcfg, htpending⟩ :=
    exec_evdrain_of_pendingExactly (hrok.trans (mainDirectOk_of_unattributed hissuer hdirect)) hpending
      (by rw [hrcfg]; exact hmin) (by rw [hrcfg]; omega) (by simpa using hjk) (by rw [hrocc, hrcfg]; omega)
  have htocc : occ t = occ s + 5 := by
    rw [← length_ringQueue, htqueue, List.length_append, length_ringQueue, hrocc]
    rfl
  obtain ⟨u, hu, huvalid, huid, huqueue, huok, -, hupending⟩ :=
    exec_evdrain_of_pendingExactly htok htpending (by rw [htcfg, hrcfg]; omega) (by rw [htcfg, hrcfg]; exact hmax)
      (by simp) (by rw [htocc, htcfg, hrcfg]; omega)
  refine ⟨t, u, respond {} u, ?_, htvalid, htid, hu, huvalid, huid, by rw [huqueue, htqueue, hrqueue],
    exec_evdrain_idle huok (lowestPending?_of_pendingExactly_nil hupending), rfl⟩
  rw [performAll_append hrun, performAll_cons ht]
  rfl

/-- Settles O26: with the flag already set a RAISE before the EVDRAIN changes no flag, one after it sets the flag
anew. -/
theorem raiseBesideEvdrainGivesOneOfTwoOrders : Obligations.RaiseBesideEvdrainGivesOneOfTwoOrders := by
  intro s j hissuer hdirect hwf hmin hmax hpend hleast hroom
  have hctx : contextOk .interrupt s = true := by rw [contextOk, hissuer]
  have hok : mainDirectOk s = true := mainDirectOk_of_unattributed hissuer hdirect
  have hraise := exec_raise_of_inRange hmin hmax hctx
  obtain ⟨r, hr⟩ : ∃ r : State, r = respond {} { s with evPending := s.evPending ||| eventBit j } := ⟨_, rfl⟩
  rw [← hr] at hraise
  have hrflag : ∀ m, r.evPending.getLsbD m = (decide (m = j.toNat) || s.evPending.getLsbD m) := by
    rw [hr]
    exact getLsbD_or_eventBit s.evPending j
  have hrlow : lowestPending? r = some j.toNat := by
    refine lowestPending?_some.2 ⟨by rw [hrflag, hpend, Bool.or_true], by rw [hr]; exact hmin, by rw [hr]; exact hmax,
      fun m hm hlt => ?_⟩
    rw [hrflag, hleast m (by rw [hr] at hm; exact hm) hlt, decide_eq_false (Nat.ne_of_lt hlt)]
    rfl
  have hrqueue : ringQueue r = ringQueue s := by rw [hr]; exact ringQueue_congr rfl rfl rfl rfl rfl
  obtain ⟨t, ht, -, htid, htqueue, htframe⟩ :=
    exec_evdrain_reports (s := r) (by rw [hr]; exact hok) hrlow (by rw [hr]; exact hroom)
  obtain ⟨u, hu, -, huid, huqueue, huframe⟩ :=
    exec_evdrain_reports hok (lowestPending?_some.2 ⟨hpend, hmin, hmax, hleast⟩) hroom
  have hraise' : exec (.raise j) u = .next (respond {} { u with evPending := u.evPending ||| eventBit j }) := by
    refine exec_raise_of_inRange ?_ ?_ ?_
    all_goals
      rw [huframe]
      assumption
  refine ⟨t, u, _, ?_, ?_, htid, hu, huid, hraise', ?_, ?_⟩
  · rw [performAll_cons hraise, performAll_cons ht]
    rfl
  · rw [show t.evPending = r.evPending &&& ~~~eventBit j by rw [htframe], getLsbD_and_not_eventBit, decide_eq_true rfl,
      Bool.not_true, Bool.and_false]
  · rw [respond_evPending, getLsbD_or_eventBit, decide_eq_true rfl, Bool.true_or]
  · rw [htqueue, hrqueue, ← huqueue]
    exact ringQueue_congr rfl rfl rfl rfl rfl

end Sys2Proof.Proofs
end

