-- ==== Sys2Proof/Proofs/Commutation.lean ====
section
/-!
The operations of the interrupt context commute with each other and with those on the ring (R269, R297), and the
obligations that state it.
-/

namespace Sys2Proof.Proofs

open Sys2Proof Sys2Proof.Machine

/-- What an operation of the interrupt context does to the state, the outputs aside (R150, R170, R200). -/
def interruptBody : Instr → State → State
  | .tick raw, s => tickBody raw s
  | .pwmovf, s => pwmBody s
  | .raise id, s => { s with evPending := s.evPending ||| eventBit id }
  | _, s => s

@[simp] theorem interruptBody_tick (raw : Byte) (s : State) : interruptBody (.tick raw) s = tickBody raw s := rfl

@[simp] theorem interruptBody_pwmovf (s : State) : interruptBody .pwmovf s = pwmBody s := rfl

@[simp] theorem interruptBody_raise (id : Byte) (s : State) :
    interruptBody (.raise id) s = { s with evPending := s.evPending ||| eventBit id } := rfl

section Interrupt

variable {i j : Instr} {s : State}

/-- The operations of the interrupt context (R92). -/
theorem interrupt_cases (h : i.context = some .interrupt) :
    (∃ raw, i = .tick raw) ∨ i = .pwmovf ∨ ∃ id, i = .raise id := by
  cases i with
  | tick raw => exact .inl ⟨raw, rfl⟩
  | pwmovf => exact .inr (.inl rfl)
  | raise id => exact .inr (.inr ⟨id, rfl⟩)
  | _ => cases h

/-- A legal operation of the interrupt context performs its body (R297). -/
theorem exec_interrupt (hi : i.context = some .interrupt) (hwf : i.wf s.cfg = true) (hissuer : s.issuer ≠ some .main) :
    exec i s = .next (respond {} (interruptBody i s)) := by
  have hctx := contextOk_interrupt_of_issuer_ne hissuer
  rcases interrupt_cases hi with ⟨raw, rfl⟩ | rfl | ⟨id, rfl⟩
  · exact exec_tick_of_contextOk hctx
  · exact exec_pwmovf_of_contextOk hctx
  · obtain ⟨hmin, hmax⟩ : s.cfg.evMin ≤ id.toNat ∧ id.toNat ≤ s.cfg.evMax := by simpa [Instr.wf] using hwf
    exact exec_raise_of_inRange hmin hmax hctx

/-- What an overflow leaves, by what its table read answers (R200). -/
theorem pwmBody_eq (s : State) :
    pwmBody s =
      { s with
        pwmCnt := s.pwmCnt + 1
        heaterOn := pwmOutput (s.pwmCnt + 1) (readThreshold s).1 s.heaterOn
        ledOn := pwmOutput (s.pwmCnt + 1) (readThreshold s).1 s.ledOn
        fresh := (readThreshold s).2.fresh } := by
  rcases readThreshold_cases s with ⟨T, -, hread⟩ | ⟨-, hread⟩
  · rw [pwmBody_of_readThreshold hread, hread]
  · rw [pwmBody_of_readThreshold (u := { s with fresh := s.fresh + 1 }) hread, hread]
    rfl

/-- The table read depends on the table, the index and the counter of free values alone (R76). -/
theorem readThreshold_congr {t : State} (hcfg : t.cfg = s.cfg) (hidx : t.pwrIdx = s.pwrIdx)
    (hfresh : t.fresh = s.fresh) :
    (readThreshold t).1 = (readThreshold s).1 ∧ (readThreshold t).2.fresh = (readThreshold s).2.fresh := by
  unfold readThreshold
  rw [hcfg, hidx]
  split
  · exact ⟨rfl, hfresh⟩
  · simp only [takeFree, hfresh, and_self]

/-- What an overflow leaves in a state `t` that reads the table as `s` does (R200). -/
theorem pwmBody_of_sameTable {t : State} (hcfg : t.cfg = s.cfg) (hidx : t.pwrIdx = s.pwrIdx)
    (hfresh : t.fresh = s.fresh) :
    pwmBody t =
      { t with
        pwmCnt := t.pwmCnt + 1
        heaterOn := pwmOutput (t.pwmCnt + 1) (readThreshold s).1 t.heaterOn
        ledOn := pwmOutput (t.pwmCnt + 1) (readThreshold s).1 t.ledOn
        fresh := (readThreshold s).2.fresh } := by
  obtain ⟨hread, hcount⟩ := readThreshold_congr hcfg hidx hfresh
  rw [pwmBody_eq, hread, hcount]

/-- An overflow reads and writes nothing that a TICK or a RAISE writes, nor they what it writes (R39). -/
theorem pwmovf_commutes (hi : i.context = some .interrupt) :
    respond {} (interruptBody .pwmovf (respond {} (interruptBody i s))) =
      respond {} (interruptBody i (respond {} (interruptBody .pwmovf s))) := by
  rcases interrupt_cases hi with ⟨raw, rfl⟩ | rfl | ⟨id, rfl⟩
  · simp only [interruptBody_pwmovf, interruptBody_tick]
    rw [pwmBody_of_sameTable (s := s) (t := respond {} (tickBody raw s)) rfl rfl rfl, pwmBody_eq s]
    rfl
  · rfl
  · simp only [interruptBody_pwmovf, interruptBody_raise]
    rw [pwmBody_of_sameTable (s := s) (t := respond {} { s with evPending := s.evPending ||| eventBit id })
      rfl rfl rfl, pwmBody_eq s]
    rfl

/-- A RAISE touches the flags alone, which no other operation of the context reads; flags are set in any order (R150).
-/
theorem raise_commutes (id : Byte) (hi : i.context = some .interrupt) :
    respond {} (interruptBody (.raise id) (respond {} (interruptBody i s))) =
      respond {} (interruptBody i (respond {} (interruptBody (.raise id) s))) := by
  rcases interrupt_cases hi with ⟨raw, rfl⟩ | rfl | ⟨k, rfl⟩
  · rfl
  · exact (pwmovf_commutes rfl).symm
  · have hor : s.evPending ||| eventBit k ||| eventBit id = s.evPending ||| eventBit id ||| eventBit k := by
      rw [BitVec.or_assoc, BitVec.or_assoc, BitVec.or_comm (eventBit k)]
    simp only [interruptBody_raise, respond_evPending, hor]
    rfl

/-- Operations of the interrupt context, not both TICK, leave the same state in either order (R297). -/
theorem interruptBody_comm (hi : i.context = some .interrupt) (hj : j.context = some .interrupt)
    (hticks : ∀ a b, ¬ (i = .tick a ∧ j = .tick b)) :
    respond {} (interruptBody j (respond {} (interruptBody i s))) =
      respond {} (interruptBody i (respond {} (interruptBody j s))) := by
  rcases interrupt_cases hj with ⟨b, rfl⟩ | rfl | ⟨k, rfl⟩
  · rcases interrupt_cases hi with ⟨a, rfl⟩ | rfl | ⟨id, rfl⟩
    · exact absurd ⟨rfl, rfl⟩ (hticks a b)
    · exact (pwmovf_commutes rfl).symm
    · exact (raise_commutes id rfl).symm
  · exact pwmovf_commutes hi
  · exact raise_commutes k hi

/-- No operation of the interrupt context changes the parameters or the issuer (R39). -/
theorem interruptBody_keeps (hi : i.context = some .interrupt) (s : State) :
    (interruptBody i s).cfg = s.cfg ∧ (interruptBody i s).issuer = s.issuer := by
  rcases interrupt_cases hi with ⟨raw, rfl⟩ | rfl | ⟨id, rfl⟩
  · exact ⟨rfl, rfl⟩
  · rw [interruptBody_pwmovf, pwmBody_eq]
    exact ⟨rfl, rfl⟩
  · exact ⟨rfl, rfl⟩

/-- Two legal operations of the interrupt context complete one after the other (R297). -/
theorem performAll_interrupts (hi : i.context = some .interrupt) (hj : j.context = some .interrupt)
    (hwi : i.wf s.cfg = true) (hwj : j.wf s.cfg = true) (hissuer : s.issuer ≠ some .main) :
    performAll [i, j] s = .next (respond {} (interruptBody j (respond {} (interruptBody i s)))) := by
  obtain ⟨hcfg, hissuer'⟩ := interruptBody_keeps hi s
  rw [performAll_cons (exec_interrupt hi hwi hissuer), performAll_cons (exec_interrupt hj ?_ ?_)]
  · rfl
  · rw [respond_cfg, hcfg]
    exact hwj
  · rw [respond_issuer, hissuer']
    exact hissuer

end Interrupt

/-- Settles O58: the two orders leave one state, outputs and all, since each operation empties them. -/
theorem interruptOperationsCommute : Obligations.InterruptOperationsCommute := by
  intro i j s hi hj hticks hwi hwj hissuer
  refine ⟨_, _, performAll_interrupts hi hj hwi hwj hissuer, performAll_interrupts hj hi hwj hwi hissuer, ?_⟩
  rw [interruptBody_comm hi hj hticks]
  rfl

section Ring

variable {i : Instr} {s : State}

/-- With the index in the table an operation of the interrupt context takes no free value, and neither reads nor
writes the ring, its cursors, `tx_zlp` or the outputs: what it leaves is the same whatever these are (R39, R269). -/
theorem interruptBody_frame (hi : i.context = some .interrupt) (hidx : s.pwrIdx.toNat < s.cfg.pwrStepsLen) :
    ∃ ev stable ct0 ct1 press cnt heater led, ∀ buf wr rd zlp n o,
      interruptBody i { s with txBuf := buf, txWr := wr, txRd := rd, txZlp := zlp, fresh := n, out := o } =
        { s with
          txBuf := buf, txWr := wr, txRd := rd, txZlp := zlp, fresh := n, out := o, evPending := ev, stable := stable,
          ct0 := ct0, ct1 := ct1, press := press, pwmCnt := cnt, heaterOn := heater, ledOn := led } := by
  rcases interrupt_cases hi with ⟨raw, rfl⟩ | rfl | ⟨id, rfl⟩
  · exact ⟨s.evPending, (tickBody raw s).stable, (tickBody raw s).ct0, (tickBody raw s).ct1, (tickBody raw s).press,
      s.pwmCnt, s.heaterOn, s.ledOn, fun _ _ _ _ _ _ => rfl⟩
  · obtain ⟨T, hT⟩ : ∃ T, s.cfg.pwrSteps[s.pwrIdx.toNat]? = some T := ⟨_, List.getElem?_eq_getElem hidx⟩
    exact ⟨s.evPending, s.stable, s.ct0, s.ct1, s.press, s.pwmCnt + 1, pwmOutput (s.pwmCnt + 1) T s.heaterOn,
      pwmOutput (s.pwmCnt + 1) T s.ledOn, fun buf wr rd zlp n o => pwmBody_of_readThreshold
        (s := { s with txBuf := buf, txWr := wr, txRd := rd, txZlp := zlp, fresh := n, out := o })
        (readThreshold_of_getElem? hT)⟩
  · exact ⟨s.evPending ||| eventBit id, s.stable, s.ct0, s.ct1, s.press, s.pwmCnt, s.heaterOn, s.ledOn,
      fun _ _ _ _ _ _ => rfl⟩

/-- A sequence of one operation. -/
theorem exec_of_performAll_single {t : State} (h : performAll [i] s = .next t) : exec i s = .next t := by
  cases hexec : exec i s with
  | next u => rw [performAll_cons hexec] at h; exact h
  | fault f => simp only [performAll, hexec] at h; cases h
  | refused r => simp only [performAll, hexec] at h; cases h

end Ring

/-- Settles O59: by `interruptBody_frame` the operation leaves the ring alone and is left alone by it, so the second
of the two is checked, and does, what it would as the first. -/
theorem interruptOperationsCommuteWithTheRing : Obligations.InterruptOperationsCommuteWithTheRing := by
  intro i j s t hi hwf hj hissuer hidx h
  have hctx : s.issuer ≠ some .main := by rw [hissuer]; exact (Option.some_ne_none _).symm
  obtain ⟨ev, stable, ct0, ct1, press, cnt, heater, led, hframe⟩ := interruptBody_frame hi hidx
  have hbody : interruptBody i s = _ := hframe s.txBuf s.txWr s.txRd s.txZlp s.fresh s.out
  rw [performAll_cons (exec_interrupt hi hwf hctx)] at h
  replace h := exec_of_performAll_single h
  rw [hbody] at h
  rcases hj with rfl | ⟨b, rfl⟩
  · obtain ⟨hok, hnext⟩ := guarded_next h
    obtain rfl := Host.Outcome.next.inj hnext
    refine ⟨respond {} (interruptBody i (drainBody s)), ?_, ?_⟩
    · rw [performAll_cons (exec_drain_of_mainDirectOk (s := s) hok),
        performAll_cons (exec_interrupt (s := drainBody s) hi hwf hctx)]
      rfl
    · have hdrained : interruptBody i (drainBody s) = _ := hframe s.txBuf s.txWr (drainBody s).txRd (drainBody s).txZlp
        (drainBody s).fresh (drainBody s).out
      rw [hdrained]
      rfl
  · obtain ⟨hok, hpush⟩ := guarded_next h
    obtain ⟨v, hv, rfl⟩ := except_map_ok (outcomeOf_next hpush)
    rcases pushByte_cases b (respond {} _) with ⟨-, hfull⟩ | ⟨hroom, hpushed⟩
    · cases hfull.symm.trans hv
    obtain rfl := Except.ok.inj (hpushed.symm.trans hv)
    have hroom' : occ s ≠ s.cfg.txCap - 1 := fun hfull => by
      change occ s + 1 < s.cfg.txCap at hroom
      omega
    obtain ⟨hexec, -⟩ := exec_push_of_room (b := b) (s := s) hok hroom'
    refine ⟨respond {} (interruptBody i (respond {} (pushed b s))), ?_, ?_⟩
    · rw [performAll_cons hexec, performAll_cons (exec_interrupt (s := respond {} (pushed b s)) hi hwf hctx)]
      rfl
    · have happended : interruptBody i (respond {} (pushed b s)) = _ :=
        hframe (pushed b s).txBuf (pushed b s).txWr s.txRd s.txZlp s.fresh {}
      rw [happended]
      rfl

end Sys2Proof.Proofs
end
